-- ==== Sys2Proof/Word.lean ====
section
/-! DEFINITION. The machine's one word type, the byte (00_scope.md R7): 8 bits, bit 7 the most significant. -/

namespace Sys2Proof

/-- A byte of the input stream or of the output buffer, and the value of one channel (R6 `CH_BITS`, R7). -/
abbrev Byte := BitVec 8

end Sys2Proof
end

