-- ==== Sys2Proof/Config.lean ====
section
/-! DEFINITION. What an instance of the hardware fixes (00_scope.md R6, the parameters marked OPEN), and the free
values. The parameters the source itself fixes (64 slots, the magic, the end marker, the biases) stand where they are used. -/

namespace Sys2Proof

/-- The bits a register holds where the spec says it holds no value (10_state.md R34, 60_exceptions.md R211):
the `n`-th free value drawn, `w` bits wide. It has no body, so nothing can be proved of a particular value.
DESIGN CHOICE, safe, log 1. -/
opaque Config.freeBits (w n : Nat) : BitVec w

/-- The byte the input space holds at an offset where nobody has placed one: a free value of each offset. The host places the
whole stream before `START` (70_reset_and_hazards.md R234 (1)); where it has not, the spec gives the byte no value and the step
no third outcome (00_scope.md R10), so the decode goes on with this one. DESIGN CHOICE, log 4. -/
opaque Config.unplacedByte (a : Nat) : BitVec 8

/-- The OPEN parameters of one instance of the hardware (R6): the cursor's width `CUR_BITS` (92_eei_decisions.md D2)
and the capacity `OUT_CAP` of the output buffer in bytes (D4), `none` for an unbounded one. The model itself is
unbounded in both, as the spec's model is; `Safety.Supports` says what an instance can run. -/
structure Config.Params where
  curBits : Nat
  outCap : Option Nat
  deriving DecidableEq, Repr

/-- `DIFF_LAYOUT` (R6, 30_encoding.md R73, D5): which delta lies in bits 5:4, which in bits 3:2, which in bits 1:0 of a
DIFF opcode byte. The name lists the channels from the most significant field down; the spec's placement is `rgb`. -/
inductive DiffLayout where
  | rgb | rbg | grb | gbr | brg | bgr
  deriving DecidableEq, Repr

end Sys2Proof
end

