-- ==== Sys2Proof/Syntax.lean ====
section
/-! DEFINITION. The syntax of a qoif stream: the stages a stream is read in (10_state.md R27) and the twelve instructions,
one constructor per row of spec/opcode_table.json. Operands are the STORED fields; biases are taken off in
Machine/Operands.lean (30_encoding.md R78). -/

namespace Sys2Proof

/-- The values of the stage register `STAGE` (10_state.md R27): the part of the stream the next step reads. -/
inductive Stage where
  /-- 0, `S_IDLE`: no step until `START`. -/
  | idle
  /-- 1, `S_MAGIC`. -/
  | magic
  /-- 2, `S_WIDTH`. -/
  | width
  /-- 3, `S_HEIGHT`. -/
  | height
  /-- 4, `S_CHANNELS`. -/
  | channels
  /-- 5, `S_COLORSPACE`. -/
  | colorspace
  /-- 6, `S_OPCODE`: the loop test, and one opcode if pixels are owed. -/
  | opcode
  /-- 7, `S_ENDMARK`. -/
  | endMark
  /-- 8, `S_DONE`: terminal, the result is `Ok`. -/
  | done
  /-- 9, `S_FAILED`: terminal, the result is `Fail`. -/
  | failed
  deriving DecidableEq, Repr

/-- The instructions. The frame instructions are the five header fields and the end marker (00_scope.md R11); MAGIC and END
carry the bytes fetched as one number, the first byte most significant, as the table's `match_scope` writes them. -/
inductive Instr where
  /-- MAGIC: the 4 bytes at offset 0, whatever they are (R72; R101 checks them). -/
  | magic (m : BitVec 32)
  /-- WIDTH: a big-endian 32-bit number (R72). -/
  | width (w : BitVec 32)
  /-- HEIGHT: a big-endian 32-bit number (R72). -/
  | height (h : BitVec 32)
  /-- CHANNELS: the byte at offset 12, whatever it is (R72; R104 checks it). -/
  | channels (c : Byte)
  /-- COLORSPACE: the byte at offset 13, whatever it is (R72; R105 checks it). -/
  | colorspace (v : Byte)
  /-- RGB: `FE r g b` (R75). -/
  | rgb (r g b : Byte)
  /-- RGBA: `FF r g b a` (R76). -/
  | rgba (r g b a : Byte)
  /-- INDEX: `00iiiiii` (R73). -/
  | index (i : BitVec 6)
  /-- DIFF: `01rrggbb`, the three stored fields, bias 2 still in them (R73, R78). -/
  | diff (fr fg fb : BitVec 2)
  /-- LUMA: `10gggggg rrrrbbbb`, the stored fields, biases 32 and 8 still in them (R74, R78). -/
  | luma (fdg : BitVec 6) (frg fbg : BitVec 4)
  /-- RUN: `11nnnnnn`, the stored field, the length less 1 (R73, R78). -/
  | run (n : BitVec 6)
  /-- END: the 8 bytes at the cursor after the opcode loop, whatever they are (R77; R175 checks them). -/
  | endMark (e : BitVec 64)
  deriving DecidableEq, Repr

/-- The stage an instruction belongs to: a frame instruction is read in the stage of its name (R100, R175), an opcode in
`S_OPCODE` (R172). -/
def Instr.stage : Instr → Stage
  | .magic _ => .magic
  | .width _ => .width
  | .height _ => .height
  | .channels _ => .channels
  | .colorspace _ => .colorspace
  | .rgb _ _ _ => .opcode
  | .rgba _ _ _ _ => .opcode
  | .index _ => .opcode
  | .diff _ _ _ => .opcode
  | .luma _ _ _ => .opcode
  | .run _ => .opcode
  | .endMark _ => .endMark

/-- How many bytes an instruction takes in the stream (30_encoding.md R71). -/
def Instr.length : Instr → Nat
  | .magic _ => 4
  | .width _ => 4
  | .height _ => 4
  | .channels _ => 1
  | .colorspace _ => 1
  | .rgb _ _ _ => 4
  | .rgba _ _ _ _ => 5
  | .index _ => 1
  | .diff _ _ _ => 1
  | .luma _ _ _ => 2
  | .run _ => 1
  | .endMark _ => 8

end Sys2Proof
end

