-- ==== Sys2Proof/WellFormed.lean ====
section
/-! DEFINITION. Which terms of `Instr` stand for words of the stream. Every field value is legal but two of RUN's: its
stored values 62 and 63 do not exist, since their bytes are RGB and RGBA (30_encoding.md R83, R84). The frame instructions
carry whatever bytes were fetched; the values that make them raise a failure are well formed too (R83, last table). -/

namespace Sys2Proof

/-- The one check a term needs: a RUN's stored field is at most 61 (30_encoding.md R84). -/
def Instr.wellFormed : Instr → Bool
  | .run n => decide (n.toNat ≤ 61)
  | .magic _ => true
  | .width _ => true
  | .height _ => true
  | .channels _ => true
  | .colorspace _ => true
  | .rgb _ _ _ => true
  | .rgba _ _ _ _ => true
  | .index _ => true
  | .diff _ _ _ => true
  | .luma _ _ _ => true
  | .endMark _ => true

end Sys2Proof
end

