-- ==== Sys2Proof/Decode.lean ====
section
/-! DEFINITION. Reading an instruction from bytes, and writing one as bytes (30_encoding.md). What bytes mean depends on
the stage: the header's fields and the end marker have no opcode (R70). `decode` is total on any bytes in any stage, and
rejects by name. -/

namespace Sys2Proof

/-- Why `decode` gives no instruction. -/
inductive DecodeError where
  /-- fewer bytes than the item needs (20_memory.md R53); the machine raises UnexpectedEof. -/
  | shortRead
  /-- the last branch of the classification (R79), which no byte reaches (R81). -/
  | invalidOpcode
  /-- the stage reads nothing: `S_IDLE`, `S_DONE`, `S_FAILED` (10_state.md R27). -/
  | noInstruction
  deriving DecidableEq, Repr

/-- The six opcode forms (R79). -/
inductive OpKind where
  | rgb | rgba | index | diff | luma | run
  deriving DecidableEq, Repr

/-- The placement of DIFF's fields that the spec takes (R73, D5): dr in bits 5:4, dg in bits 3:2, db in bits 1:0. -/
def diffLayout : DiffLayout := .rgb

/-- The magic `"qoif"`, `71 6F 69 66`, first byte most significant (R72, D19). -/
def magicWord : BitVec 32 := 0x716F6966

/-- The end marker `00 00 00 00 00 00 00 01`, first byte most significant (R77). -/
def endWord : BitVec 64 := 0x0000000000000001

/-- The number that bytes in stream order make, the first the most significant (20_memory.md R55). -/
def beNat (bs : List Byte) : Nat := bs.foldl (fun acc b => acc * 256 + b.toNat) 0

/-- `BE32` (20_memory.md R55). -/
def be32 (b0 b1 b2 b3 : Byte) : BitVec 32 := BitVec.ofNat 32 (beNat [b0, b1, b2, b3])

/-- Eight bytes in stream order as one number, the first the most significant (R77). -/
def be64 (b0 b1 b2 b3 b4 b5 b6 b7 : Byte) : BitVec 64 := BitVec.ofNat 64 (beNat [b0, b1, b2, b3, b4, b5, b6, b7])

/-- The `n` low bytes of `v`, the most significant first: the inverse of `beNat` on `n` bytes. -/
def beBytes : Nat → Nat → List Byte
  | 0, _ => []
  | n + 1, v => BitVec.ofNat 8 (v / 256 ^ n) :: beBytes n v

/-- The `n` low bytes of `v`, the least significant first. -/
def leBytes : Nat → Nat → List Byte
  | 0, _ => []
  | n + 1, v => BitVec.ofNat 8 v :: leBytes n (v / 256)

/-- The classification of the opcode byte, tested in the spec's priority order (R79). Its last branch is dead (R81). -/
def classify (b : Byte) : Except DecodeError OpKind :=
  if b = 0xFE#8 then .ok .rgb
  else if b = 0xFF#8 then .ok .rgba
  else if b.extractLsb' 6 2 = 0b00#2 then .ok .index
  else if b.extractLsb' 6 2 = 0b01#2 then .ok .diff
  else if b.extractLsb' 6 2 = 0b10#2 then .ok .luma
  else if b.extractLsb' 6 2 = 0b11#2 then .ok .run
  else .error .invalidOpcode

/-- How many payload bytes follow the opcode byte (R71, R82). -/
def OpKind.payload : OpKind → Nat
  | .rgb => 3
  | .rgba => 4
  | .index => 0
  | .diff => 0
  | .luma => 1
  | .run => 0

/-- DIFF's stored fields, placed by the layout: from the fields in bits 5:4, 3:2 and 1:0 the instruction (R73). -/
def diffOfFields (lay : DiffLayout) (hi mid lo : BitVec 2) : Instr :=
  match lay with
  | .rgb => .diff hi mid lo
  | .rbg => .diff hi lo mid
  | .grb => .diff mid hi lo
  | .gbr => .diff lo hi mid
  | .brg => .diff mid lo hi
  | .bgr => .diff lo mid hi

/-- The fields in bits 5:4, 3:2 and 1:0 of a DIFF byte, for stored deltas `fr`, `fg`, `fb` (R73). -/
def diffFields (lay : DiffLayout) (fr fg fb : BitVec 2) : BitVec 6 :=
  match lay with
  | .rgb => fr ++ fg ++ fb
  | .rbg => fr ++ fb ++ fg
  | .grb => fg ++ fr ++ fb
  | .gbr => fg ++ fb ++ fr
  | .brg => fb ++ fr ++ fg
  | .bgr => fb ++ fg ++ fr

/-- One opcode, from the opcode byte `b` and the bytes after it (R73 to R76): the instruction and the bytes left. -/
def decodeOpcode (lay : DiffLayout) (b : Byte) (rest : List Byte) : Except DecodeError (Instr × List Byte) :=
  match classify b with
  | .error e => .error e
  | .ok .rgb =>
    match rest with
    | r :: g :: bl :: rest' => .ok (.rgb r g bl, rest')
    | _ => .error .shortRead
  | .ok .rgba =>
    match rest with
    | r :: g :: bl :: a :: rest' => .ok (.rgba r g bl a, rest')
    | _ => .error .shortRead
  | .ok .index => .ok (.index (b.extractLsb' 0 6), rest)
  | .ok .diff => .ok (diffOfFields lay (b.extractLsb' 4 2) (b.extractLsb' 2 2) (b.extractLsb' 0 2), rest)
  | .ok .luma =>
    match rest with
    | b2 :: rest' => .ok (.luma (b.extractLsb' 0 6) (b2.extractLsb' 4 4) (b2.extractLsb' 0 4), rest')
    | _ => .error .shortRead
  | .ok .run => .ok (.run (b.extractLsb' 0 6), rest)

/-- The decoder, for any placement of DIFF's fields: the instruction at the head of `bs` in stage `st`, and the bytes
after it (R70 to R82). -/
def decodeWith (lay : DiffLayout) (st : Stage) (bs : List Byte) : Except DecodeError (Instr × List Byte) :=
  match st with
  | .idle => .error .noInstruction
  | .magic =>
    match bs with
    | b0 :: b1 :: b2 :: b3 :: rest => .ok (.magic (be32 b0 b1 b2 b3), rest)
    | _ => .error .shortRead
  | .width =>
    match bs with
    | b0 :: b1 :: b2 :: b3 :: rest => .ok (.width (be32 b0 b1 b2 b3), rest)
    | _ => .error .shortRead
  | .height =>
    match bs with
    | b0 :: b1 :: b2 :: b3 :: rest => .ok (.height (be32 b0 b1 b2 b3), rest)
    | _ => .error .shortRead
  | .channels =>
    match bs with
    | c :: rest => .ok (.channels c, rest)
    | _ => .error .shortRead
  | .colorspace =>
    match bs with
    | v :: rest => .ok (.colorspace v, rest)
    | _ => .error .shortRead
  | .opcode =>
    match bs with
    | b :: rest => decodeOpcode lay b rest
    | _ => .error .shortRead
  | .endMark =>
    match bs with
    | b0 :: b1 :: b2 :: b3 :: b4 :: b5 :: b6 :: b7 :: rest => .ok (.endMark (be64 b0 b1 b2 b3 b4 b5 b6 b7), rest)
    | _ => .error .shortRead
  | .done => .error .noInstruction
  | .failed => .error .noInstruction

/-- The decoder of the hardware: DIFF's fields as the spec places them (D5). -/
def decode (st : Stage) (bs : List Byte) : Except DecodeError (Instr × List Byte) := decodeWith diffLayout st bs

/-- How many bytes a stage fetches first (20_memory.md R53, R58): a whole frame field, or the opcode byte. -/
def firstFetch : Stage → Nat
  | .idle => 0
  | .magic => 4
  | .width => 4
  | .height => 4
  | .channels => 1
  | .colorspace => 1
  | .opcode => 1
  | .endMark => 8
  | .done => 0
  | .failed => 0

/-- How many bytes a stage fetches after the `first` ones: an opcode's payload, whose length the opcode byte alone
decides (R82); nothing after a frame field. -/
def payloadLength (st : Stage) (first : List Byte) : Nat :=
  match st, first with
  | .opcode, b :: _ =>
    match classify b with
    | .ok k => k.payload
    | .error _ => 0
  | _, _ => 0

/-- The bytes of an instruction, for any placement of DIFF's fields, written from R72 to R77. -/
def encodeWith (lay : DiffLayout) : Instr → List Byte
  | .magic m => beBytes 4 m.toNat
  | .width w => beBytes 4 w.toNat
  | .height h => beBytes 4 h.toNat
  | .channels c => [c]
  | .colorspace v => [v]
  | .rgb r g b => [0xFE#8, r, g, b]
  | .rgba r g b a => [0xFF#8, r, g, b, a]
  | .index i => [0b00#2 ++ i]
  | .diff fr fg fb => [0b01#2 ++ diffFields lay fr fg fb]
  | .luma fdg frg fbg => [0b10#2 ++ fdg, frg ++ fbg]
  | .run n => [0b11#2 ++ n]
  | .endMark e => beBytes 8 e.toNat

/-- The bytes of an instruction in a stream of this hardware. -/
def encode (i : Instr) : List Byte := encodeWith diffLayout i

/-- The stage in which a word of spec/opcode_table.json is read. The table's frame rows have no opcode, so a word alone does
not say its row; what its width and value leave open is settled so: 64 bits are END; 32 bits are RGB where the first byte is
`FE`, MAGIC where they are the magic, and else WIDTH (as are no bits at all: only rows without a fixed bit have none); every
other width is an opcode. DESIGN CHOICE, log 8. -/
def tableStage (nbits w : Nat) : Stage :=
  if nbits = 64 then .endMark
  else if nbits = 32 ∧ w = magicWord.toNat then .magic
  else if nbits = 0 ∨ (nbits = 32 ∧ w % 256 ≠ 0xFE) then .width
  else .opcode

/-- The bytes of a word of the table in stream order: a frame field is ONE word, most significant byte first (R55, and
the table's `match_scope`); an opcode is a row of one-byte words, the opcode byte in bits 7:0. Eight zero bytes follow. -/
def tableBytes (nbits w : Nat) : List Byte :=
  (match tableStage nbits w with
   | .opcode => leBytes (nbits / 8) w
   | _ => beBytes (nbits / 8) w) ++ List.replicate 8 0#8

/-- The instruction the decoder reads from the word `w` of `nbits` bits, numbered as spec/opcode_table.json numbers them. -/
def decodeTableWord (nbits w : Nat) : Option Instr :=
  match decode (tableStage nbits w) (tableBytes nbits w) with
  | .ok (i, _) => some i
  | .error _ => none

end Sys2Proof
end

