-- ==== Sys2Proof/Machine/State.lean ====
section
/-! DEFINITION. The state of the decoder (10_state.md), plain data, with the reasons a step can stop and the state after
the decode reset (10_state.md R33, 70_reset_and_hazards.md R231). -/

namespace Sys2Proof.Machine

/-- The six failures (60_exceptions.md R200 to R206). A failure is an exception the machine TAKES (R211): a next state in
`S_FAILED`, not a stop of the model. -/
inductive Failure where
  | invalidMagic
  | unexpectedEof
  | invalidChannelCount
  | invalidColorspace
  | invalidOpcode
  | invalidEndMarker
  deriving DecidableEq, Repr

/-- Why a step stops without a next state. A running stage never does (00_scope.md R10). -/
inductive Fault where
  /-- raised by `step` in `S_IDLE`, `S_DONE` and `S_FAILED` with no `START` waiting: no step is enabled there
  (10_state.md R27, 46_output_controller.md R178, 70_reset_and_hazards.md R242). Safe: the spec has no such step. -/
  | noStepEnabled
  deriving DecidableEq, Repr

/-- Why an instruction or a host's move is refused. All are safe: the model stops where hardware would go on. -/
inductive Refusal where
  /-- raised by `exec` for an instruction without a meaning: none in this model. Safe. -/
  | notModelled (mnemonic : String)
  /-- raised by `hostRead` for a result register outside its "valid when" window (10_state.md R31,
  93_implementation_defined.md U4, U6, which name this treatment). Safe. -/
  | readOutsideWindow
  /-- raised by `hostReadOut` outside `DONE` or beyond `OUT_LEN` (70_reset_and_hazards.md R237, U4). Safe. -/
  | outputNotReady
  /-- raised by `hostWrite` on `IN_LEN`, by `hostWriteIn` and by `launch` from `START` until the decode ends
  (70_reset_and_hazards.md R238, U5). Safe. -/
  | inputInUse
  /-- raised by `hostWrite` on a read-only register (10_state.md R31). Safe. -/
  | registerReadOnly
  /-- raised by `hostWrite` on `CTRL` and by `launch` for a `START` on a stream whose image does not fit the instance
  (46_output_controller.md R181, D4, U3). Safe. -/
  | launchDoesNotFit
  deriving DecidableEq, Repr

/-- A pixel (10_state.md R20): four channels always, compared and stored by value. -/
structure Pixel where
  r : Byte
  g : Byte
  b : Byte
  a : Byte
  deriving DecidableEq, Repr

/-- The bytes of one address space, as (address, byte) cells with strictly rising addresses. -/
abbrev Memory := List Host.Cell

/-- The one canonical form of a memory: addresses strictly rising. (An unlisted address holds no byte, so no cell can equal
what it reads as.) -/
abbrev Memory.wf (m : Memory) : Prop := m.Pairwise (fun p q => p.1 < q.1)

/-- What an unlisted address reads as: no byte. In `OUT` it is an offset nothing was appended at; in `IN` one nothing was placed
at, where `State.inByte` reads a free value. DESIGN CHOICE, safe, log 4. -/
def Memory.unlisted : Option Byte := none

/-- The whole state of the decoder. -/
structure State where
  /-- `STAGE` (R27). -/
  stage : Stage
  /-- `ERR` (R28): `none` is the code 0, no failure. -/
  err : Option Failure
  /-- `ERR_STAGE` (R28): the stage a failure was raised in; `idle`, code 0, when none was. -/
  errStage : Stage
  /-- `CTRL.START` (R30): a `START` the host wrote and the decoder has not yet acted on. The host reads it as 0. -/
  ctrlStart : Bool
  /-- `IN` (20_memory.md R50): the input stream, the host's. -/
  input : Memory
  /-- `IN_LEN` (R30): how many bytes the stream has, the host's. -/
  inLen : Nat
  /-- `CUR` (R23): the stream cursor, this machine's program counter. -/
  cur : Nat
  /-- `WIDTH` (R24). -/
  width : BitVec 32
  /-- `HEIGHT` (R24). -/
  height : BitVec 32
  /-- `CHANNELS` (R24). -/
  channels : Byte
  /-- `COLORSPACE` (R24). -/
  colorspace : Byte
  /-- `TARGET` (R25): exact, never wrapped. -/
  target : Nat
  /-- `PREV` (R21). -/
  prev : Pixel
  /-- `HIST[0..63]` (R22). -/
  hist : Vector Pixel 64
  /-- `OUT` (R26, 20_memory.md R51): the output buffer. -/
  out : Memory
  /-- `OUT_LEN` (R26): how many bytes have been appended. -/
  outLen : Nat
  /-- The MODEL's own: how many free values have been drawn (log 1). -/
  freeCount : Nat
  deriving DecidableEq, Repr

/-- The previous pixel after reset (R33): opaque black. -/
def Pixel.initial : Pixel := ⟨0, 0, 0, 255⟩

/-- What a history slot holds after reset (R33): transparent black. -/
def Pixel.zero : Pixel := ⟨0, 0, 0, 0⟩

/-- The history after reset (R33): slot 53 seeded with the initial previous pixel, every other slot zero. -/
def resetHistory : Vector Pixel 64 := (Vector.replicate 64 Pixel.zero).set 53 Pixel.initial

/-- The machine right after the decode reset (R33), with no stream placed. The registers R33 leaves unspecified are 0:
DESIGN CHOICE, unsafe, log 2; nothing is placed in `IN` and `IN_LEN` is 0: DESIGN CHOICE, log 4. -/
def State.reset : State where
  stage := .magic
  err := none
  errStage := .idle
  ctrlStart := false
  input := []
  inLen := 0
  cur := 0
  width := 0
  height := 0
  channels := 0
  colorspace := 0
  target := 0
  prev := Pixel.initial
  hist := resetHistory
  out := []
  outLen := 0
  freeCount := 0

end Sys2Proof.Machine
end

