-- ==== Sys2Proof/Machine/Ops.lean ====
section
/-! DEFINITION. The named operations over memory and registers: the two address spaces (20_memory.md), the cursor and the
stage, the hash and the history (45_history_cache.md), appending to the output (46_output_controller.md R171), the common
post-processing `Commit` (R165), taking a failure (60_exceptions.md R211) and, beside it, the only way out of one, the
decode reset (70_reset_and_hazards.md R231). -/

namespace Sys2Proof.Machine

/-- The byte at address `a`, if there is one. -/
def Memory.read (m : Memory) (a : Nat) : Option Byte :=
  match m with
  | [] => Memory.unlisted
  | c :: rest => if c.1 = a then some c.2 else Memory.read rest a

/-- Put the byte `b` at address `a`, in its place in the rising order. -/
def Memory.write (m : Memory) (a : Nat) (b : Byte) : Memory :=
  match m with
  | [] => [(a, b)]
  | c :: rest =>
    if a < c.1 then (a, b) :: c :: rest
    else if a = c.1 then (a, b) :: rest
    else c :: Memory.write rest a b

/-- `MemRead` (00_scope.md R9): the `n` bytes from `a` on, in rising order; `none` if one of them is not there. -/
def Memory.readBytes (m : Memory) (a : Nat) : Nat → Option (List Byte)
  | 0 => some []
  | n + 1 =>
    match m.read a, Memory.readBytes m (a + 1) n with
    | some b, some bs => some (b :: bs)
    | _, _ => none

/-- `MemWrite` (00_scope.md R9): the bytes at `a`, `a + 1`, ..., in the order given. -/
def Memory.writeBytes (m : Memory) (a : Nat) : List Byte → Memory
  | [] => m
  | b :: bs => Memory.writeBytes (m.write a b) (a + 1) bs

/-- The byte the input space reads as at offset `a` (20_memory.md R50): the one placed there, else a free value (log 4). -/
def Memory.inByte (m : Memory) (a : Nat) : Byte := (m.read a).getD (Config.unplacedByte a)

/-- `MemRead` (00_scope.md R9) of the input space: `n` bytes from offset `a` on, in rising order. -/
def Memory.inBytes (m : Memory) (a : Nat) : Nat → List Byte
  | 0 => []
  | n + 1 => m.inByte a :: Memory.inBytes m (a + 1) n

/-- The byte the decoder reads at offset `a` of its input. -/
def State.inByte (s : State) (a : Nat) : Byte := s.input.inByte a

/-- The `n` bytes the decoder reads from offset `a` of its input on. -/
def State.inBytes (s : State) (a n : Nat) : List Byte := s.input.inBytes a n

/-- `add8` (00_scope.md R8): a signed delta added to a channel modulo 256. -/
def add8 (c : Byte) (d : Int) : Byte := BitVec.ofInt 8 ((c.toNat : Int) + d)

/-- `Hash` (45_history_cache.md R160): the slot of a pixel, from all four channels. -/
def pixelHash (p : Pixel) : Fin 64 :=
  ⟨(p.r.toNat * 3 + p.g.toNat * 5 + p.b.toNat * 7 + p.a.toNat * 11) % 64, Nat.mod_lt _ (by decide)⟩

/-- The read of history slot `i` (R162): it never fails. -/
def State.slot (s : State) (i : Fin 64) : Pixel := s.hist.get i

/-- Move the cursor past `n` fetched bytes (10_state.md R23, 20_memory.md R53). -/
def State.advance (s : State) (n : Nat) : State := { s with cur := s.cur + n }

/-- Go to another stage (10_state.md R27). -/
def State.goto (s : State) (st : Stage) : State := { s with stage := st }

/-- Forget a `START` that waits: one written while `BUSY` is ignored (70_reset_and_hazards.md R239). -/
def State.dropStart (s : State) : State := { s with ctrlStart := false }

/-- The bytes one pixel puts into the output (R171): alpha only where the channel count is 4. -/
def pixelBytes (channels : Byte) (p : Pixel) : List Byte :=
  if channels = 4#8 then [p.r, p.g, p.b, p.a] else [p.r, p.g, p.b]

/-- Append bytes at the end of the output (R170). -/
def State.append (s : State) (bs : List Byte) : State :=
  { s with out := s.out.writeBytes s.outLen bs, outLen := s.outLen + bs.length }

/-- `Emit` (R171): the append of one pixel. -/
def emit (p : Pixel) (s : State) : State := s.append (pixelBytes s.channels p)

/-- `Emit` of the same pixel `n` times (44_op_run.md R150). -/
def emitN (p : Pixel) : Nat → State → State
  | 0, s => s
  | n + 1, s => emitN p n (emit p s)

/-- Make `p` the previous pixel and write it into the slot of its hash (R163, R165): last write wins. -/
def State.remember (s : State) (p : Pixel) : State := { s with prev := p, hist := s.hist.set (pixelHash p).val p (pixelHash p).isLt }

/-- `Commit` (R165): the common post-processing of every opcode but RUN. -/
def commit (new : Pixel) (s : State) : State := emit new (s.remember new)

/-- The end of the opcode loop (R172): nothing is fetched. -/
def endLoop (s : State) : State := s.goto .endMark

/-- `raise` (60_exceptions.md R211): `ERR_STAGE` takes the stage, `ERR` the failure, `STAGE` becomes `S_FAILED`. The output
is dropped (log 5); the header registers and `TARGET` hold no value any more, so each takes a free value (log 1); the cursor,
the previous pixel and the history are as before the failing step (R213, D18, U10; log 6). -/
def raise (f : Failure) (s : State) : State :=
  { s with
    stage := .failed
    err := some f
    errStage := s.stage
    width := Config.freeBits 32 s.freeCount
    height := Config.freeBits 32 (s.freeCount + 1)
    channels := Config.freeBits 8 (s.freeCount + 2)
    colorspace := Config.freeBits 8 (s.freeCount + 3)
    target := (Config.freeBits 66 (s.freeCount + 4)).toNat
    out := []
    outLen := 0
    freeCount := s.freeCount + 5 }

/-- The decode reset that `START` performs (70_reset_and_hazards.md R231): nothing of an earlier decode survives but the
host's own `IN` and `IN_LEN` (10_state.md R33). The registers that hold no value afterwards are 0 as at `State.reset`
(log 2). There is no return from a failure (60_exceptions.md R214): this is the only way out of `S_FAILED`. -/
def decodeReset (s : State) : State :=
  { s with
    stage := .magic
    err := none
    errStage := .idle
    ctrlStart := false
    cur := 0
    width := 0
    height := 0
    channels := 0
    colorspace := 0
    target := 0
    prev := Pixel.initial
    hist := (Vector.replicate 64 Pixel.zero).set (pixelHash Pixel.initial).val Pixel.initial (pixelHash Pixel.initial).isLt
    out := []
    outLen := 0 }

end Sys2Proof.Machine
end

