-- ==== Sys2Proof/Machine/Operands.lean ====
section
/-! DEFINITION. From the stored fields to the values the opcodes use (30_encoding.md R78): biases are subtracted, nothing is
sign-extended or scaled. Deltas are mathematical integers; only the final sum is reduced (43_ops_delta.md R141 (a)). -/

namespace Sys2Proof.Machine

/-- DIFF: stored field, bias 2, the delta -2 to 1 (R78, C5). -/
def diffDelta (f : BitVec 2) : Int := (f.toNat : Int) - 2

/-- LUMA: the green delta, bias 32, -32 to 31 (R78). -/
def lumaGreen (fdg : BitVec 6) : Int := (fdg.toNat : Int) - 32

/-- LUMA: the red or blue delta, -40 to 38: its stored distance from the green delta, bias 8, plus the green delta (R78). -/
def lumaOther (fdg : BitVec 6) (f : BitVec 4) : Int := (f.toNat : Int) + lumaGreen fdg - 8

/-- RUN: the run length, 1 to 62 (R78). -/
def runLength (n : BitVec 6) : Nat := n.toNat + 1

/-- INDEX: the slot the opcode names (R78: no bias). -/
def slotOf (i : BitVec 6) : Fin 64 := ⟨i.toNat, i.isLt⟩

/-- The pixel three deltas make of another: 8-bit wrap-around, no carry between channels, alpha copied (R140, R141). -/
def Pixel.shift (p : Pixel) (dr dg db : Int) : Pixel := ⟨add8 p.r dr, add8 p.g dg, add8 p.b db, p.a⟩

end Sys2Proof.Machine
end

