-- ==== Sys2Proof/Machine/Delta.lean ====
section
/-! DEFINITION. The predictor opcodes DIFF and LUMA (43_ops_delta.md). -/

namespace Sys2Proof.Machine

/-- DIFF (R140): three independent deltas on the previous pixel. -/
def execDiff (fr fg fb : BitVec 2) (s : State) : Host.Outcome State Fault Refusal :=
  .next (commit (s.prev.shift (diffDelta fr) (diffDelta fg) (diffDelta fb)) (s.advance 1))

/-- LUMA (R141): a green delta, and the red and blue deltas by their distance from it. -/
def execLuma (fdg : BitVec 6) (frg fbg : BitVec 4) (s : State) : Host.Outcome State Fault Refusal :=
  .next (commit (s.prev.shift (lumaOther fdg frg) (lumaGreen fdg) (lumaOther fdg fbg)) (s.advance 2))

end Sys2Proof.Machine
end

