-- ==== Sys2Proof/Machine/EndMark.lean ====
section
/-! DEFINITION. The frame instruction END (46_output_controller.md). -/

namespace Sys2Proof.Machine

/-- END (R175): the eight bytes must be the end marker; then the decode is done. -/
def execEndMark (e : BitVec 64) (s : State) : Host.Outcome State Fault Refusal :=
  if e = endWord then .next ((s.advance 8).goto .done) else .next (raise .invalidEndMarker s)

end Sys2Proof.Machine
end

