-- ==== Sys2Proof/Machine/Header.lean ====
section
/-! DEFINITION. The header parser's frame instructions MAGIC, WIDTH, HEIGHT, CHANNELS, COLORSPACE (40_header_parser.md).
The field has been fetched whole when its meaning runs (R100); a check comes before any effect (60_exceptions.md R213). -/

namespace Sys2Proof.Machine

/-- MAGIC (R101): all four bytes must match. -/
def execMagic (m : BitVec 32) (s : State) : Host.Outcome State Fault Refusal :=
  if m = magicWord then .next ((s.advance 4).goto .width) else .next (raise .invalidMagic s)

/-- WIDTH (R102): any value is taken. -/
def execWidth (w : BitVec 32) (s : State) : Host.Outcome State Fault Refusal :=
  .next (State.goto { s.advance 4 with width := w } .height)

/-- HEIGHT (R103): any value is taken. -/
def execHeight (h : BitVec 32) (s : State) : Host.Outcome State Fault Refusal :=
  .next (State.goto { s.advance 4 with height := h } .channels)

/-- CHANNELS (R104): 3 or 4. -/
def execChannels (c : Byte) (s : State) : Host.Outcome State Fault Refusal :=
  if c = 3#8 ∨ c = 4#8 then .next (State.goto { s.advance 1 with channels := c } .colorspace)
  else .next (raise .invalidChannelCount s)

/-- COLORSPACE (R105): 0 or 1; the step that forms `TARGET`, the exact product (10_state.md R25). -/
def execColorspace (v : Byte) (s : State) : Host.Outcome State Fault Refusal :=
  if v = 0#8 ∨ v = 1#8 then
    .next (State.goto { s.advance 1 with colorspace := v, target := s.width.toNat * s.height.toNat * s.channels.toNat } .opcode)
  else .next (raise .invalidColorspace s)

end Sys2Proof.Machine
end

