-- ==== Sys2Proof/Machine/Index.lean ====
section
/-! DEFINITION. The history lookup opcode INDEX (42_op_index.md). -/

namespace Sys2Proof.Machine

/-- INDEX (R130): the pixel of the slot named, alpha included, read before `Commit` writes. -/
def execIndex (i : BitVec 6) (s : State) : Host.Outcome State Fault Refusal :=
  .next (commit (s.slot (slotOf i)) (s.advance 1))

end Sys2Proof.Machine
end

