-- ==== Sys2Proof/Machine/Literal.lean ====
section
/-! DEFINITION. The literal opcodes RGB and RGBA (41_ops_literal.md). -/

namespace Sys2Proof.Machine

/-- RGB (R120): the channels of the payload, the alpha of the previous pixel. -/
def execRgb (r g b : Byte) (s : State) : Host.Outcome State Fault Refusal :=
  .next (commit ⟨r, g, b, s.prev.a⟩ (s.advance 4))

/-- RGBA (R121): all four channels of the payload. -/
def execRgba (r g b a : Byte) (s : State) : Host.Outcome State Fault Refusal :=
  .next (commit ⟨r, g, b, a⟩ (s.advance 5))

end Sys2Proof.Machine
end

