-- ==== Sys2Proof/Machine/Run.lean ====
section
/-! DEFINITION. The run-length opcode RUN (44_op_run.md). -/

namespace Sys2Proof.Machine

/-- RUN (R150): the previous pixel as often as the run is long, whether or not the target is passed on the way
(46_output_controller.md R173, D12); no `Commit`. -/
def execRun (n : BitVec 6) (s : State) : Host.Outcome State Fault Refusal :=
  .next (emitN s.prev (runLength n) (s.advance 1))

end Sys2Proof.Machine
end

