-- ==== Sys2Proof/Machine/Dispatch.lean ====
section
/-! DEFINITION. From an instruction to its meaning, one arm per constructor. -/

namespace Sys2Proof.Machine

def exec (i : Instr) (s : State) : Host.Outcome State Fault Refusal :=
  match i with
  | .magic m => Sys2Proof.Machine.execMagic m s
  | .width w => Sys2Proof.Machine.execWidth w s
  | .height h => Sys2Proof.Machine.execHeight h s
  | .channels c => Sys2Proof.Machine.execChannels c s
  | .colorspace v => Sys2Proof.Machine.execColorspace v s
  | .rgb r g b => Sys2Proof.Machine.execRgb r g b s
  | .rgba r g b a => Sys2Proof.Machine.execRgba r g b a s
  | .index k => Sys2Proof.Machine.execIndex k s
  | .diff fr fg fb => Sys2Proof.Machine.execDiff fr fg fb s
  | .luma fdg frg fbg => Sys2Proof.Machine.execLuma fdg frg fbg s
  | .run n => Sys2Proof.Machine.execRun n s
  | .endMark e => Sys2Proof.Machine.execEndMark e s

end Sys2Proof.Machine
end

