-- ==== Sys2Proof/Machine/Fetch.lean ====
section
/-! DEFINITION. Fetching from the input stream (20_memory.md R53) and what the next step does (10_state.md R27,
46_output_controller.md R172). -/

namespace Sys2Proof.Machine

/-- `Fetch(n)` at offset `at_` (R53): `none` is a short read, and the length is tested before any byte is used. Moving the
cursor is left to the meaning, so that a step that fails has not moved it (D18). -/
def fetch (s : State) (at_ n : Nat) : Option (List Byte) :=
  if s.inLen < at_ + n then none else some (s.inBytes at_ n)

/-- What the next step does. -/
inductive Action where
  /-- perform the decode reset. -/
  | reset
  /-- leave the opcode loop. -/
  | loopEnd
  /-- run an instruction. -/
  | run (i : Instr)
  /-- raise a failure before any instruction runs. -/
  | raise (f : Failure)
  /-- no step. -/
  | stuck (r : Fault)
  deriving DecidableEq, Repr

/-- Fetch the frame field or the opcode byte, then the payload, and decode (R53, R172). -/
def fetchInstr (s : State) : Action :=
  match fetch s s.cur (firstFetch s.stage) with
  | none => .raise .unexpectedEof
  | some first =>
    match fetch s (s.cur + first.length) (payloadLength s.stage first) with
    | none => .raise .unexpectedEof
    | some payload =>
      match decode s.stage (first ++ payload) with
      | .ok (i, _) => .run i
      | .error .shortRead => .raise .unexpectedEof
      | .error .invalidOpcode => .raise .invalidOpcode
      | .error .noInstruction => .stuck .noStepEnabled

/-- In a quiescent stage the only step is the decode reset, and only when a `START` waits (10_state.md R27, R30). -/
def awaitStart (s : State) : Action := if s.ctrlStart then .reset else .stuck .noStepEnabled

/-- The loop test of R172, made once, before the opcode byte is fetched: `OUT_LEN >= TARGET` ends the loop (D12). -/
def opcodeAction (s : State) : Action := if s.target ≤ s.outLen then .loopEnd else fetchInstr s

/-- The step each stage enables (10_state.md R27). -/
def nextAction (s : State) : Action :=
  match s.stage with
  | .idle => awaitStart s
  | .magic => fetchInstr s
  | .width => fetchInstr s
  | .height => fetchInstr s
  | .channels => fetchInstr s
  | .colorspace => fetchInstr s
  | .opcode => opcodeAction s
  | .endMark => fetchInstr s
  | .done => awaitStart s
  | .failed => awaitStart s

/-- `s` with the word of the table placed where the next step fetches, and all that this takes (log 8): its bytes in `IN` at
the cursor, `IN_LEN` past them, the stage that reads it, and for an opcode a `TARGET` that still owes a byte. -/
def placeWord (s : State) (nbits w : Nat) : State :=
  { s with
    stage := tableStage nbits w
    input := s.input.writeBytes s.cur (tableBytes nbits w)
    inLen := s.cur + (tableBytes nbits w).length
    target := if tableStage nbits w = .opcode ∧ s.target ≤ s.outLen then s.outLen + 1 else s.target }

end Sys2Proof.Machine
end

