-- ==== Sys2Proof/Machine/Step.lean ====
section
/-! DEFINITION. One step of the decoder (10_state.md R27). A `START` that waits in a running stage is ignored
(70_reset_and_hazards.md R239): the step forgets it. -/

namespace Sys2Proof.Machine

/-- One step: the decode reset, the end of the opcode loop, an instruction, or a failure. -/
def step (s : State) : Host.Outcome State Fault Refusal :=
  match nextAction s with
  | .reset => .next (decodeReset s)
  | .loopEnd => .next (endLoop s.dropStart)
  | .run i => exec i s.dropStart
  | .raise f => .next (raise f s.dropStart)
  | .stuck r => .fault r

/-- `s` with the word `w` of `nbits` bits stored where `step` fetches its next instruction. -/
def State.withFetchWord (s : State) (nbits w : Nat) : State := placeWord s nbits w

end Sys2Proof.Machine
end

