-- ==== Sys2Proof/Machine/Assembler.lean ====
section
/-! DEFINITION. The assembler syntax of the spec (30_encoding.md R86, R87, D15): one line of it, with the DECODED operands
(signed deltas, run length 1 to 62), and the bytes it assembles to. -/

namespace Sys2Proof.Machine

/-- One line of the syntax (R86). -/
inductive Asm where
  | header (w h c v : Nat)
  | rgb (r g b : Nat)
  | rgba (r g b a : Nat)
  | index (i : Nat)
  | diff (dr dg db : Int)
  | luma (dg drg dbg : Int)
  | run (n : Nat)
  | endMark
  | bytes (bs : List Nat)
  deriving DecidableEq, Repr

/-- A number as one byte, if it is one. -/
def asByte (n : Nat) : Option Byte := if n < 256 then some (BitVec.ofNat 8 n) else none

/-- A delta `d` as a stored field of width `w` with a bias (R78), if it is in the field's range. -/
def biased (w : Nat) (bias : Nat) (d : Int) : Option (BitVec w) :=
  if 0 ≤ d + bias ∧ d + bias < 2 ^ w then some (BitVec.ofNat w (d + bias).toNat) else none

/-- The instruction `DIFF dr, dg, db` stands for. -/
def asmDiff (dr dg db : Int) : Option Instr := do
  return .diff (← biased 2 2 dr) (← biased 2 2 dg) (← biased 2 2 db)

/-- The instruction `LUMA dg, drg, dbg` stands for; `drg` is dr - dg and `dbg` is db - dg. -/
def asmLuma (dg drg dbg : Int) : Option Instr := do
  return .luma (← biased 6 32 dg) (← biased 4 8 drg) (← biased 4 8 dbg)

/-- The instruction `RUN n` stands for, 1 to 62. -/
def asmRun (n : Nat) : Option Instr :=
  if 1 ≤ n ∧ n ≤ 62 then some (.run (BitVec.ofNat 6 (n - 1))) else none

/-- The bytes a line assembles to (R86), if its operands are in range. `header` takes illegal channel counts and colorspaces
on purpose, and `bytes` takes anything. -/
def assemble : Asm → Option (List Byte)
  | .header w h c v => do
    if w < 2 ^ 32 ∧ h < 2 ^ 32 then
      return [0x71#8, 0x6F#8, 0x69#8, 0x66#8] ++ beBytes 4 w ++ beBytes 4 h ++ [← asByte c, ← asByte v]
    else none
  | .rgb r g b => do return encode (.rgb (← asByte r) (← asByte g) (← asByte b))
  | .rgba r g b a => do return encode (.rgba (← asByte r) (← asByte g) (← asByte b) (← asByte a))
  | .index i => if i < 64 then some (encode (.index (BitVec.ofNat 6 i))) else none
  | .diff dr dg db => (asmDiff dr dg db).map encode
  | .luma dg drg dbg => (asmLuma dg drg dbg).map encode
  | .run n => (asmRun n).map encode
  | .endMark => some (encode (.endMark endWord))
  | .bytes bs => bs.mapM asByte

end Sys2Proof.Machine
end

