-- ==== Sys2Proof/Machine/Flags.lean ====
section
/-! DEFINITION. The flags (10_state.md R29). There are no arithmetic flags: no opcode sets or reads one. The three status
bits are functions of `STAGE`, and with the codes of R27 and R207 they make the words the host reads (R31). -/

namespace Sys2Proof.Machine

/-- The numeric code of a stage (R27). -/
def stageCode : Stage → Nat
  | .idle => 0
  | .magic => 1
  | .width => 2
  | .height => 3
  | .channels => 4
  | .colorspace => 5
  | .opcode => 6
  | .endMark => 7
  | .done => 8
  | .failed => 9

/-- The numeric code of a failure (60_exceptions.md R207). -/
def failureCode : Failure → Nat
  | .invalidMagic => 1
  | .unexpectedEof => 2
  | .invalidChannelCount => 3
  | .invalidColorspace => 4
  | .invalidOpcode => 5
  | .invalidEndMarker => 6

/-- The code `ERR` holds (R207): 0 where no failure was raised. -/
def errCode : Option Failure → Nat
  | none => 0
  | some f => failureCode f

/-- `BUSY` (R29): a running stage. -/
def State.busy (s : State) : Bool := decide (1 ≤ stageCode s.stage ∧ stageCode s.stage ≤ 7)

/-- `DONE` (R29); also the output `done` (20_memory.md R66). -/
def State.isDone (s : State) : Bool := decide (stageCode s.stage = 8)

/-- `FAIL` (R29); also the output `fail` (20_memory.md R66). -/
def State.isFail (s : State) : Bool := decide (stageCode s.stage = 9)

/-- The word of register 1, `STATUS` (R31): bit 0 `BUSY`, bit 1 `DONE`, bit 2 `FAIL`, bits 7:4 `STAGE`. Bit 3 and the bits above 7,
which R31 does not name, read as 0: DESIGN CHOICE, unsafe, log 14. -/
def statusWord (s : State) : Nat :=
  s.busy.toNat + 2 * s.isDone.toNat + 4 * s.isFail.toNat + 16 * stageCode s.stage

/-- The word of register 2, `ERR` (R31): bits 2:0 `ERR`, bits 7:4 `ERR_STAGE`; 0 outside `FAIL`. While
`FAIL`, bit 3 and the bits above 7, which R31 does not name, read as 0: DESIGN CHOICE, unsafe, log 14. Between a host's `START` and
the decode reset `STATUS` still shows `FAIL`, and this word the old failure: DESIGN CHOICE, log 3. -/
def errWord (s : State) : Nat :=
  if s.isFail then errCode s.err + 16 * stageCode s.errStage else 0

end Sys2Proof.Machine
end

