-- ==== Sys2Proof/Machine/HostPort.lean ====
section
/-! DEFINITION. The host's side (10_state.md R30, R31; 60_exceptions.md R222; 70_reset_and_hazards.md R230, R234 to R239):
the registers it reads and writes, the two buffers, `START`, power-on reset, and a whole launch. These are moves of the
host between steps; `step` is the decoder's. `PREV`, `HIST` and `CUR` have no host register. -/

namespace Sys2Proof.Machine

/-- The registers the host sees (R31). -/
inductive HostReg where
  | ctrl | status | err | inLen | width | height | channels | colorspace | outLen | target
  deriving DecidableEq, Repr

/-- The number of a host register (R31). -/
def HostReg.number : HostReg → Nat
  | .ctrl => 0
  | .status => 1
  | .err => 2
  | .inLen => 3
  | .width => 4
  | .height => 5
  | .channels => 6
  | .colorspace => 7
  | .outLen => 8
  | .target => 9

/-- From `START` until the decode ends the input belongs to the decoder (70_reset_and_hazards.md R238). -/
def State.inUse (s : State) : Bool := s.busy || s.ctrlStart

/-- The result registers and `OUT` hold the result: `DONE`, and no `START` written since, which ends it (R31, R236). -/
def State.resultReady (s : State) : Bool := s.isDone && !s.ctrlStart

/-- A register that is readable only while the result is there (R31 "valid when `DONE`"). -/
def readResult (s : State) (v : Nat) : Except Refusal Nat :=
  if s.resultReady then .ok v else .error .readOutsideWindow

/-- A host read (R31). `CTRL` reads as 0. A register's word has only the bits R31 names; any others read as 0 (log 14).
`IN_LEN`, which R31 calls host-owned, is read in every stage, while `BUSY` and while a `START` waits too: DESIGN CHOICE, unsafe,
log 15. -/
def hostRead (reg : HostReg) (s : State) : Except Refusal Nat :=
  match reg with
  | .ctrl => .ok 0
  | .status => .ok (statusWord s)
  | .err => .ok (errWord s)
  | .inLen => .ok s.inLen
  | .width => readResult s s.width.toNat
  | .height => readResult s s.height.toNat
  | .channels => readResult s s.channels.toNat
  | .colorspace => readResult s s.colorspace.toNat
  | .outLen => readResult s s.outLen
  | .target => readResult s s.target

/-- `TARGET` and the channel count of the image that a stream's header asks for, read from its bytes as the host must do
before a launch (70_reset_and_hazards.md R234 (3)). Only a header that the decoder accepts (40_header_parser.md R106, last row)
asks for an image: a header that is cut short or fails a check forms no `TARGET` (10_state.md R34), and the decode of it ends in
its failure before anything is appended (R107). DEDUCED, safe, log 13. -/
def headerTarget (stream : List Byte) : Option (Nat × Nat) :=
  if stream.take 4 = [0x71#8, 0x6F#8, 0x69#8, 0x66#8] ∧ (stream[12]? = some 3#8 ∨ stream[12]? = some 4#8) ∧
      (stream[13]? = some 0#8 ∨ stream[13]? = some 1#8) then
    let channels := beNat ((stream.drop 12).take 1)
    some (beNat ((stream.drop 4).take 4) * beNat ((stream.drop 8).take 4) * channels, channels)
  else none

/-- Whether an instance has room for the image of a stream, if it asks for one (46_output_controller.md R181):
`TARGET + 61 * CHANNELS` bytes at most. -/
def fits (p : Config.Params) (stream : List Byte) : Bool :=
  match p.outCap, headerTarget stream with
  | some cap, some (target, channels) => decide (target + 61 * channels ≤ cap)
  | _, _ => true

/-- The header of the stream in the input space, or as much of it as `IN_LEN` gives. -/
def State.placedHeader (s : State) : List Byte := s.inBytes 0 (min 14 s.inLen)

/-- A write of `CTRL` (R30): bit 0 is `START`, the other bits are ignored; `START` while `BUSY` is ignored
(70_reset_and_hazards.md R239, D10). The next step acts on it (R231; log 3). A `START` on a stream whose image does not fit the
instance is refused (46_output_controller.md R181, U3; log 12). -/
def writeCtrl (p : Config.Params) (v : Nat) (s : State) : Host.Outcome State Fault Refusal :=
  if v % 2 = 1 ∧ s.busy = false then
    if fits p s.placedHeader then .next { s with ctrlStart := true } else .refused .launchDoesNotFit
  else .next s

/-- A host write of a register (R31) of an instance. -/
def hostWrite (p : Config.Params) (reg : HostReg) (v : Nat) (s : State) : Host.Outcome State Fault Refusal :=
  match reg with
  | .ctrl => writeCtrl p v s
  | .inLen => if s.inUse then .refused .inputInUse else .next { s with inLen := v }
  | .status => .refused .registerReadOnly
  | .err => .refused .registerReadOnly
  | .width => .refused .registerReadOnly
  | .height => .refused .registerReadOnly
  | .channels => .refused .registerReadOnly
  | .colorspace => .refused .registerReadOnly
  | .outLen => .refused .registerReadOnly
  | .target => .refused .registerReadOnly

/-- A host write of one byte of `IN` (20_memory.md R65): not during a decode. -/
def hostWriteIn (a : Nat) (b : Byte) (s : State) : Host.Outcome State Fault Refusal :=
  if s.inUse then .refused .inputInUse else .next { s with input := s.input.write a b }

/-- A host read of one byte of `OUT` (70_reset_and_hazards.md R237): only while the result is there, only below
`OUT_LEN`. -/
def hostReadOut (a : Nat) (s : State) : Except Refusal Byte :=
  if s.resultReady ∧ a < s.outLen then
    match s.out.read a with
    | some b => .ok b
    | none => .error .outputNotReady
  else .error .outputNotReady

/-- Power-on reset (`rst_n`, 70_reset_and_hazards.md R230): `STAGE`, `ERR` and `ERR_STAGE` get their values, no `START`
waits, and every other piece of state is left unspecified: it is whatever `junk` holds, and a statement about power-on
holds for every `junk` (log 7). -/
def powerOn (junk : State) : State :=
  { junk with stage := .idle, err := none, errStage := .idle, ctrlStart := false }

/-- A launch (70_reset_and_hazards.md R234): place the stream, write its length, write `START`. Refused while an earlier
decode runs (R238), and with `START` where the image does not fit the instance (R181). -/
def launch (p : Config.Params) (stream : List Byte) (s : State) : Host.Outcome State Fault Refusal :=
  if s.inUse then .refused .inputInUse
  else writeCtrl p 1 { s with input := s.input.writeBytes 0 stream, inLen := stream.length }

end Sys2Proof.Machine
end

