-- ==== Sys2Proof/Machine/Result.lean ====
section
/-! DEFINITION. What a decode hands over (46_output_controller.md R178, R179; 60_exceptions.md R212): the decoded image, or
the failure and its stage, and nothing before the end. -/

namespace Sys2Proof.Machine

/-- The decoded image (R178): five parts. -/
structure Image where
  width : BitVec 32
  height : BitVec 32
  channels : Byte
  colorspace : Byte
  bytes : List Byte
  deriving DecidableEq, Repr

/-- The result of a decode (00_scope.md R10, R12). -/
inductive Result where
  /-- at `S_DONE`. -/
  | ok (image : Image)
  /-- at `S_FAILED`: the failure and the stage it was raised in. -/
  | fail (failure : Failure) (stage : Stage)
  deriving DecidableEq, Repr

/-- The bytes of `OUT` from 0 to `OUT_LEN - 1` (R178), if all are there. -/
def State.outBytes (s : State) : Option (List Byte) := s.out.readBytes 0 s.outLen

/-- The result a state holds: none before the decode has ended (R178, 60_exceptions.md R211). It is the decoder's view: until the
decode reset a `START` brings, it is still the old result, though the host can no longer read it (DESIGN CHOICE, log 3). -/
def State.result (s : State) : Option Result :=
  match s.stage with
  | .idle => none
  | .magic => none
  | .width => none
  | .height => none
  | .channels => none
  | .colorspace => none
  | .opcode => none
  | .endMark => none
  | .done => s.outBytes.map fun bs => .ok ⟨s.width, s.height, s.channels, s.colorspace, bs⟩
  | .failed => s.err.map fun f => .fail f s.errStage

/-- The row pitch of the buffer handed over, in bytes (R179): no padding between rows. -/
def Image.rowPitch (im : Image) : Nat := im.width.toNat * im.channels.toNat

/-- Where the pixel of a row and column begins in the buffer (20_memory.md R60). -/
def Image.offset (im : Image) (row column : Nat) : Nat := row * im.rowPitch + column * im.channels.toNat

/-- The bytes of pixel number `k`, counting from 0 (20_memory.md R60): 3 or 4 of them, in the order r, g, b (, a). -/
def Image.pixelBytes (im : Image) (k : Nat) : List Byte :=
  (im.bytes.drop (k * im.channels.toNat)).take im.channels.toNat

end Sys2Proof.Machine
end

