-- ==== Sys2Proof/Safety.lean ====
section
/-! DEFINITION. The terms claims are stated in: what a good state is, what a stream the host has placed is, what an append
is, and what an instance can run. -/

namespace Sys2Proof.Safety

open Sys2Proof.Machine

/-- The decode has ended (70_reset_and_hazards.md R242): `S_DONE` or `S_FAILED`. -/
def Ended (s : State) : Prop := s.stage = .done ∨ s.stage = .failed

/-- The stage is one of those in which only a `START` is waited for (10_state.md R27). -/
def Quiescent (s : State) : Prop := s.stage = .idle ∨ s.stage = .done ∨ s.stage = .failed

/-- A running stage, 1 to 7 (10_state.md R27). -/
def Running (s : State) : Prop := s.busy = true

/-- The host has placed every byte of the stream (70_reset_and_hazards.md R234 (1)). -/
def InputPlaced (s : State) : Prop := ∀ a, a < s.inLen → (s.input.read a).isSome

/-- The bytes `bs` lie in the input from offset `a` on, within `IN_LEN`. -/
def InputHas (s : State) (a : Nat) (bs : List Byte) : Prop :=
  a + bs.length ≤ s.inLen ∧ s.inBytes a bs.length = bs

/-- From `s` to `t` exactly the bytes `bs` were appended to the output (46_output_controller.md R170): they lie at the old
`OUT_LEN`, `OUT_LEN` has grown by their number, and every other offset reads as before. -/
def Appends (s t : State) (bs : List Byte) : Prop :=
  t.outLen = s.outLen + bs.length ∧
  (∀ k b, bs[k]? = some b → t.out.read (s.outLen + k) = some b) ∧
  (∀ a, a < s.outLen ∨ s.outLen + bs.length ≤ a → t.out.read a = s.out.read a)

/-- The bytes a pixel puts into the output of an image (46_output_controller.md R171). -/
def EmittedBytes (channels : Byte) (p : Pixel) : List Byte :=
  if channels = 4#8 then [p.r, p.g, p.b, p.a] else [p.r, p.g, p.b]

/-- A step of `S_OPCODE` reads an opcode: pixels are still owed (46_output_controller.md R172). -/
def OpcodeReady (s : State) : Prop := s.stage = .opcode ∧ s.outLen < s.target

/-- From `s` to `t` an opcode of `len` bytes made the pixel `p` (45_history_cache.md R165): the cursor moved by `len`; `PREV` is
`p`; the slot `(3r + 5g + 7b + 11a) mod 64` is `p` and every other slot is as before; the bytes of `p` were appended; and
everything else is unchanged. -/
def Committed (s t : State) (len : Nat) (p : Pixel) : Prop :=
  t.cur = s.cur + len ∧ t.prev = p ∧
  (∀ i : Fin 64, t.hist.get i =
    if i.val = (p.r.toNat * 3 + p.g.toNat * 5 + p.b.toNat * 7 + p.a.toNat * 11) % 64 then p else s.hist.get i) ∧
  Appends s t (EmittedBytes s.channels p) ∧
  t = { s with cur := t.cur, prev := t.prev, hist := t.hist, out := t.out, outLen := t.outLen }

/-- From `s` to `t` the failure `f` was raised, as far as the result goes (60_exceptions.md R211, R212): `S_FAILED`, the failure
and the stage of `s` recorded, and `Fail` of the two as the result. -/
def Raises (s t : State) (f : Failure) : Prop :=
  t.stage = .failed ∧ t.err = some f ∧ t.errStage = s.stage ∧ t.result = some (.fail f s.stage)

/-- From `s` to `t` the failure `f` was raised (60_exceptions.md R211 to R213): `S_FAILED`, the failure and the stage recorded,
no output left (log 5), and the failing step has moved neither the cursor nor `PREV` nor the history (log 6). Nothing is said of the header
registers and `TARGET`, which hold no value. -/
def RaisedFrom (s t : State) (f : Failure) : Prop :=
  t.stage = .failed ∧ t.err = some f ∧ t.errStage = s.stage ∧ t.result = some (.fail f s.stage) ∧
  t.out = [] ∧ t.outLen = 0 ∧ t.cur = s.cur ∧ t.prev = s.prev ∧ t.hist = s.hist ∧ t.input = s.input ∧ t.inLen = s.inLen

/-- Both memories are in their canonical form. -/
def MemoriesCanonical (s : State) : Prop := Memory.wf s.input ∧ Memory.wf s.out

/-- The output lists exactly the offsets below `OUT_LEN` (10_state.md R26). -/
def OutDense (s : State) : Prop := ∀ a, (s.out.read a).isSome ↔ a < s.outLen

/-- `HIST[Hash(PREV)] = PREV`, and every slot holds its reset value or a pixel of its own hash (45_history_cache.md R166). -/
def HistoryCoherent (s : State) : Prop :=
  s.hist.get (pixelHash s.prev) = s.prev ∧
  ∀ i : Fin 64, s.hist.get i = Pixel.zero ∨ pixelHash (s.hist.get i) = i

/-- Where the cursor stands in each stage (20_memory.md R59), and that it lies within the stream (10_state.md R23). -/
def CursorPlaced (s : State) : Prop :=
  (s.busy = true → s.cur ≤ s.inLen) ∧
  match s.stage with
  | .magic => s.cur = 0
  | .width => s.cur = 4
  | .height => s.cur = 8
  | .channels => s.cur = 12
  | .colorspace => s.cur = 13
  | .opcode => 14 ≤ s.cur
  | .endMark => 14 ≤ s.cur
  | .done => 22 ≤ s.cur
  | .idle => True
  | .failed => True

/-- The channel count is legal once its stage has passed (10_state.md R24). -/
def ChannelsLegal (s : State) : Prop := s.channels = 3#8 ∨ s.channels = 4#8

/-- What holds once the header has been read (10_state.md R24, R25; 46_output_controller.md R171, R173): a legal channel
count and colorspace, the exact target, an output of whole pixels, not longer than a RUN can make it. -/
def HeaderRead (s : State) : Prop :=
  ChannelsLegal s ∧ (s.colorspace = 0#8 ∨ s.colorspace = 1#8) ∧
  s.target = s.width.toNat * s.height.toNat * s.channels.toNat ∧
  s.outLen % s.channels.toNat = 0 ∧ s.outLen ≤ s.target + 61 * s.channels.toNat

/-- What each stage guarantees of the header registers and the output. That the output is empty in `S_FAILED` is the model's
choice, log 5. -/
def StageCoherent (s : State) : Prop :=
  match s.stage with
  | .idle => True
  | .magic => s.outLen = 0
  | .width => s.outLen = 0
  | .height => s.outLen = 0
  | .channels => s.outLen = 0
  | .colorspace => ChannelsLegal s ∧ s.outLen = 0
  | .opcode => HeaderRead s
  | .endMark => HeaderRead s ∧ s.target ≤ s.outLen
  | .done => HeaderRead s ∧ s.target ≤ s.outLen
  | .failed => s.outLen = 0

/-- `ERR` and `ERR_STAGE` name a failure exactly in `S_FAILED`, and then one that its stage can raise
(10_state.md R28, 60_exceptions.md R207). -/
def ErrCoherent (s : State) : Prop :=
  match s.err, s.stage with
  | none, .failed => False
  | none, _ => s.errStage = .idle
  | some .invalidMagic, .failed => s.errStage = .magic
  | some .unexpectedEof, .failed => 1 ≤ stageCode s.errStage ∧ stageCode s.errStage ≤ 7
  | some .invalidChannelCount, .failed => s.errStage = .channels
  | some .invalidColorspace, .failed => s.errStage = .colorspace
  | some .invalidEndMarker, .failed => s.errStage = .endMark
  | some .invalidOpcode, .failed => False
  | some _, _ => False

/-- No `START` waits while a decode runs (70_reset_and_hazards.md R239). -/
def NoStartWhileBusy (s : State) : Prop := s.busy = true → s.ctrlStart = false

/-- The decoder's invariant: all of the above. In `S_FAILED` its clauses about the output and the history rest on the model's
choices, logs 5 and 6. -/
def Coherent (s : State) : Prop :=
  MemoriesCanonical s ∧ OutDense s ∧ HistoryCoherent s ∧ CursorPlaced s ∧ StageCoherent s ∧ ErrCoherent s ∧ NoStartWhileBusy s

/-- What an instance can run (92_eei_decisions.md D2, D4): a claim meant for a real instance carries this premise. -/
def Supports (p : Config.Params) (s : State) : Prop :=
  s.inLen < 2 ^ p.curBits ∧ ∀ cap, p.outCap = some cap → s.target + 61 * s.channels.toNat ≤ cap

/-- The premise a claim carries that is meant to hold of the original software too, whose integer width the source does not
give (92_eei_decisions.md D3, 93_implementation_defined.md U7). -/
def WithinSourceArithmetic (s : State) : Prop := s.target < 2 ^ 32

/-- The width of the registers `TARGET` and `OUT_LEN` (10_state.md R25, R26) is never exceeded. -/
def FitsSixtySixBits (s : State) : Prop := s.target < 2 ^ 66 ∧ s.outLen < 2 ^ 66

end Sys2Proof.Safety
end

