-- ==== Sys2Proof/Certificates/Slice0/Obligations.lean ====
section
/-! DEFINITION. The statements for the provers, from the spec's numbered rules. Each docstring names the rule it formalises;
what a title claims stands in the Lean. -/

open Sys2Proof Sys2Proof.Machine Sys2Proof.Safety

/-! ## Encoding -/

/-- R71 to R77, for every placement of DIFF's fields (R73, D5): decoding the bytes of a well-formed instruction, in the stage
it belongs to, gives the instruction back and leaves the bytes after it. -/
def Obligations.DecodeOfEncode : Prop :=
  ∀ (lay : DiffLayout) (i : Instr) (rest : List Byte), i.wellFormed = true →
    decodeWith lay i.stage (encodeWith lay i ++ rest) = .ok (i, rest)

/-- R70, R79, R83: in each stage bytes have one meaning; what decodes is well formed, belongs to the stage, and encodes to
exactly the bytes consumed. -/
def Obligations.EncodeOfDecode : Prop :=
  ∀ (lay : DiffLayout) (st : Stage) (bs rest : List Byte) (i : Instr), decodeWith lay st bs = .ok (i, rest) →
    i.wellFormed = true ∧ i.stage = st ∧ encodeWith lay i ++ rest = bs

/-- R80: the map of all 256 opcode bytes, with the embedded field of each range and the bytes each opcode takes. Which of DIFF's
three fields lies where is the spec's decision D5 (R73), the model's log 11. -/
def Obligations.OpcodeByteMap : Prop :=
  ∀ (b p0 p1 p2 p3 : Byte) (rest : List Byte),
    (b.toNat ≤ 0x3F → ∃ i : BitVec 6, i.toNat = b.toNat ∧
      decode .opcode (b :: p0 :: p1 :: p2 :: p3 :: rest) = .ok (.index i, p0 :: p1 :: p2 :: p3 :: rest)) ∧
    (0x40 ≤ b.toNat ∧ b.toNat ≤ 0x7F → ∃ fr fg fb : BitVec 2, b.toNat = 0x40 + fr.toNat * 16 + fg.toNat * 4 + fb.toNat ∧
      decode .opcode (b :: p0 :: p1 :: p2 :: p3 :: rest) = .ok (.diff fr fg fb, p0 :: p1 :: p2 :: p3 :: rest)) ∧
    (0x80 ≤ b.toNat ∧ b.toNat ≤ 0xBF → ∃ (fdg : BitVec 6) (frg fbg : BitVec 4),
      b.toNat = 0x80 + fdg.toNat ∧ p0.toNat = frg.toNat * 16 + fbg.toNat ∧
      decode .opcode (b :: p0 :: p1 :: p2 :: p3 :: rest) = .ok (.luma fdg frg fbg, p1 :: p2 :: p3 :: rest)) ∧
    (0xC0 ≤ b.toNat ∧ b.toNat ≤ 0xFD → ∃ n : BitVec 6, b.toNat = 0xC0 + n.toNat ∧ n.toNat ≤ 61 ∧
      decode .opcode (b :: p0 :: p1 :: p2 :: p3 :: rest) = .ok (.run n, p0 :: p1 :: p2 :: p3 :: rest)) ∧
    (b.toNat = 0xFE →
      decode .opcode (b :: p0 :: p1 :: p2 :: p3 :: rest) = .ok (.rgb p0 p1 p2, p3 :: rest)) ∧
    (b.toNat = 0xFF →
      decode .opcode (b :: p0 :: p1 :: p2 :: p3 :: rest) = .ok (.rgba p0 p1 p2 p3, rest))

/-- R72 to R77: words written out from the spec's encodings, one of every family, decode to what they stand for.
DIFF's word rests on the placement of its fields, the spec's decision D5 (R73), the model's log 11. -/
def Obligations.SampleWordsDecode : Prop :=
  decode .magic [0x71, 0x6F, 0x69, 0x66] = .ok (.magic 0x716F6966, []) ∧
  decode .width [0x12, 0x34, 0x56, 0x78] = .ok (.width 305419896, []) ∧
  decode .height [0x01, 0x00, 0x00, 0x00] = .ok (.height 16777216, []) ∧
  decode .channels [0x03] = .ok (.channels 3, []) ∧
  decode .colorspace [0x01] = .ok (.colorspace 1, []) ∧
  decode .opcode [0xFE, 0xC8, 0x64, 0x32] = .ok (.rgb 200 100 50, []) ∧
  decode .opcode [0xFF, 0x0A, 0x14, 0x1E, 0x28] = .ok (.rgba 10 20 30 40, []) ∧
  decode .opcode [0x35] = .ok (.index 53, []) ∧
  decode .opcode [0x4E] = .ok (.diff 0 3 2, []) ∧
  decode .opcode [0xA5, 0x5F] = .ok (.luma 37 5 15, []) ∧
  decode .opcode [0xFD] = .ok (.run 61, []) ∧
  decode .endMark [0, 0, 0, 0, 0, 0, 0, 1] = .ok (.endMark 1, [])

/-! ## The step -/

/-- R27, R172: when the bytes at the cursor decode to an instruction of the running stage (and, in `S_OPCODE`, pixels are
owed), the step is that instruction's meaning, with a waiting `START` forgotten. -/
def Obligations.StepRunsDecodedInstruction : Prop :=
  ∀ (s : State) (bs : List Byte) (i : Instr), Running s → (s.stage = .opcode → s.outLen < s.target) →
    InputHas s s.cur bs → decode s.stage bs = .ok (i, []) → step s = exec i s.dropStart

/-- R172: the whole `S_OPCODE` step. It ends the loop without a fetch when `OUT_LEN >= TARGET`; else it raises
`UnexpectedEof` at the end of the stream, and else runs the opcode at the cursor and stays in `S_OPCODE`. -/
def Obligations.OpcodeStageStep : Prop :=
  ∀ s : State, s.stage = .opcode →
    (s.target ≤ s.outLen → step s = .next { s with stage := .endMark, ctrlStart := false }) ∧
    (s.outLen < s.target → s.inLen ≤ s.cur → ∃ t, step s = .next t ∧ Raises s t .unexpectedEof) ∧
    (s.outLen < s.target → ∀ i : Instr, i.stage = .opcode → i.wellFormed = true → InputHas s s.cur (encode i) →
      ∃ t, exec i s.dropStart = .next t ∧ step s = .next t ∧ t.stage = .opcode)

/-- R53, R202: when the stream ends inside the field or opcode at the cursor (its bytes so far being there), the step raises
`UnexpectedEof` and records the stage. -/
def Obligations.ShortReadRaisesUnexpectedEof : Prop :=
  ∀ (s : State) (i : Instr) (k : Nat), i.wellFormed = true → i.stage = s.stage →
    (s.stage = .opcode → s.outLen < s.target) → k < i.length → InputHas s s.cur ((encode i).take k) →
    s.inLen = s.cur + k → ∃ t, step s = .next t ∧ Raises s t .unexpectedEof

/-- R10, R27, R242: in a running stage there is always a next state (whether or not the host placed the bytes below `IN_LEN`, log
4); in `S_IDLE`, `S_DONE` and `S_FAILED` there is none until a `START` waits (log 3). -/
def Obligations.StepEnabledExactlyWhenRunning : Prop :=
  (∀ s : State, Running s → ∃ t, step s = .next t) ∧
  (∀ s : State, Quiescent s → s.ctrlStart = false → step s = .fault .noStepEnabled)

/-- R27: the stages a step can lead to. -/
def Obligations.StageSuccessors : Prop :=
  ∀ s t : State, step s = .next t →
    (Quiescent s ∧ t.stage = .magic) ∨
    (Running s ∧ (t.stage = .failed ∨ (s.stage = .opcode ∧ t.stage = .opcode) ∨
      stageCode t.stage = stageCode s.stage + 1))

/-- R211, R213: every step of a running stage that ends in `S_FAILED` records a failure and its stage, drops the output, and
has no other effect on the cursor, `PREV` and the history (that they keep their values is log 6, as U10 allows). -/
def Obligations.FailureEntry : Prop :=
  ∀ s t : State, Running s → step s = .next t → t.stage = .failed → ∃ f, RaisedFrom s t f

/-- R207: which failure is raised in which stage, and what the host then reads from register 2 (R31, R235): the code, and 16
times the stage. `InvalidOpcode` is never raised (R81, R205). The numbers are the spec's decision D7; that the word's
unnamed bits are 0 is the model's choice, log 14. -/
def Obligations.FailureTable : Prop :=
  ∀ s t : State, Running s → step s = .next t → t.stage = .failed →
    (t.err = some .invalidMagic ∧ s.stage = .magic ∧ hostRead .err t = .ok (1 + 16 * 1)) ∨
    (t.err = some .unexpectedEof ∧ hostRead .err t = .ok (2 + 16 * stageCode s.stage)) ∨
    (t.err = some .invalidChannelCount ∧ s.stage = .channels ∧ hostRead .err t = .ok (3 + 16 * 4)) ∨
    (t.err = some .invalidColorspace ∧ s.stage = .colorspace ∧ hostRead .err t = .ok (4 + 16 * 5)) ∨
    (t.err = some .invalidEndMarker ∧ s.stage = .endMark ∧ hostRead .err t = .ok (6 + 16 * 7))

/-- R65, R50, R35: no step changes the input or its length. -/
def Obligations.InputNeverWritten : Prop :=
  ∀ s t : State, step s = .next t → t.input = s.input ∧ t.inLen = s.inLen

/-- R170: in a running stage a step that does not fail only appends to the output. -/
def Obligations.OutputAppendOnly : Prop :=
  ∀ s t : State, Running s → step s = .next t → t.stage ≠ .failed →
    s.outLen ≤ t.outLen ∧ ∀ a, a < s.outLen → t.out.read a = s.out.read a

/-- R23, R82: in a running stage a step that does not fail moves the cursor only forward, by the bytes it consumed (the
well-formed instruction that lies at the cursor), and never past the end of the stream. -/
def Obligations.CursorOnlyMovesForward : Prop :=
  ∀ s t : State, Running s → step s = .next t → t.stage ≠ .failed →
    (t.cur = s.cur ∧ s.stage = .opcode ∧ t.stage = .endMark) ∨
    (∃ i : Instr, i.wellFormed = true ∧ i.stage = s.stage ∧ t.cur = s.cur + i.length ∧ t.cur ≤ s.inLen ∧ InputHas s s.cur (encode i))

/-! ## The header -/

/-- R101: MAGIC. The four bytes are compared whole; the match moves on to `S_WIDTH` and changes nothing else, any other four
bytes raise `InvalidMagic`, fewer raise `UnexpectedEof`. -/
def Obligations.MagicIsChecked : Prop :=
  (∀ s : State, exec (.magic 0x716F6966) s = .next { s with cur := s.cur + 4, stage := .width }) ∧
  (∀ (m : BitVec 32) (s : State), m ≠ 0x716F6966 → ∃ t, exec (.magic m) s = .next t ∧ Raises s t .invalidMagic) ∧
  (∀ s : State, s.stage = .magic → InputHas s s.cur [0x71, 0x6F, 0x69, 0x66] →
    step s = .next { s with cur := s.cur + 4, stage := .width, ctrlStart := false }) ∧
  (∀ (s : State) (b0 b1 b2 b3 : Byte), s.stage = .magic → InputHas s s.cur [b0, b1, b2, b3] →
    ¬(b0 = 0x71 ∧ b1 = 0x6F ∧ b2 = 0x69 ∧ b3 = 0x66) → ∃ t, step s = .next t ∧ Raises s t .invalidMagic) ∧
  (∀ s : State, s.stage = .magic → s.inLen < s.cur + 4 → ∃ t, step s = .next t ∧ Raises s t .unexpectedEof)

/-- R102, R103: WIDTH and HEIGHT take any four bytes as a big-endian number (R55), change nothing else, and fail only on a
short read. -/
def Obligations.WidthAndHeightAreBigEndian : Prop :=
  (∀ (w : BitVec 32) (s : State), exec (.width w) s = .next { s with width := w, cur := s.cur + 4, stage := .height }) ∧
  (∀ (h : BitVec 32) (s : State), exec (.height h) s = .next { s with height := h, cur := s.cur + 4, stage := .channels }) ∧
  (∀ (s : State) (b0 b1 b2 b3 : Byte), InputHas s s.cur [b0, b1, b2, b3] →
    (s.stage = .width → ∃ w : BitVec 32,
      w.toNat = b0.toNat * 2 ^ 24 + b1.toNat * 2 ^ 16 + b2.toNat * 2 ^ 8 + b3.toNat ∧
      step s = .next { s with width := w, cur := s.cur + 4, stage := .height, ctrlStart := false }) ∧
    (s.stage = .height → ∃ h : BitVec 32,
      h.toNat = b0.toNat * 2 ^ 24 + b1.toNat * 2 ^ 16 + b2.toNat * 2 ^ 8 + b3.toNat ∧
      step s = .next { s with height := h, cur := s.cur + 4, stage := .channels, ctrlStart := false })) ∧
  (∀ s : State, s.stage = .width ∨ s.stage = .height → s.inLen < s.cur + 4 →
    ∃ t, step s = .next t ∧ Raises s t .unexpectedEof)

/-- R104: CHANNELS takes 3 and 4 only. -/
def Obligations.ChannelCountIsChecked : Prop :=
  (∀ (c : Byte) (s : State), c.toNat = 3 ∨ c.toNat = 4 →
    exec (.channels c) s = .next { s with channels := c, cur := s.cur + 1, stage := .colorspace }) ∧
  (∀ (c : Byte) (s : State), c.toNat ≤ 2 ∨ 5 ≤ c.toNat →
    ∃ t, exec (.channels c) s = .next t ∧ Raises s t .invalidChannelCount) ∧
  (∀ (s : State) (c : Byte), s.stage = .channels → InputHas s s.cur [c] → step s = exec (.channels c) s.dropStart) ∧
  (∀ s : State, s.stage = .channels → s.inLen ≤ s.cur → ∃ t, step s = .next t ∧ Raises s t .unexpectedEof)

/-- R105: COLORSPACE takes 0 and 1 only, records the tag and forms the exact product `TARGET` (R25). -/
def Obligations.ColorspaceFormsTarget : Prop :=
  (∀ (v : Byte) (s : State), v.toNat = 0 ∨ v.toNat = 1 →
    exec (.colorspace v) s = .next { s with
      colorspace := v, target := s.width.toNat * s.height.toNat * s.channels.toNat, cur := s.cur + 1, stage := .opcode }) ∧
  (∀ (v : Byte) (s : State), 2 ≤ v.toNat →
    ∃ t, exec (.colorspace v) s = .next t ∧ Raises s t .invalidColorspace) ∧
  (∀ (s : State) (v : Byte), s.stage = .colorspace → InputHas s s.cur [v] → step s = exec (.colorspace v) s.dropStart) ∧
  (∀ s : State, s.stage = .colorspace → s.inLen ≤ s.cur → ∃ t, step s = .next t ∧ Raises s t .unexpectedEof)

/-- R106: what a header gives, as a function of `IN_LEN` and its bytes, the first row that applies deciding. That each
field is fetched and checked before the next is fetched is the spec's decision D14. -/
def Obligations.HeaderVerdict : Prop :=
  ∀ s : State, s.stage = .magic → s.cur = 0 →
    ∃ (k : Nat) (t : State), k ≤ 5 ∧ Sys2Proof.core.run k s = .next t ∧
      if s.inLen < 4 then t.result = some (.fail .unexpectedEof .magic)
      else if s.inBytes 0 4 ≠ [0x71, 0x6F, 0x69, 0x66] then t.result = some (.fail .invalidMagic .magic)
      else if s.inLen < 8 then t.result = some (.fail .unexpectedEof .width)
      else if s.inLen < 12 then t.result = some (.fail .unexpectedEof .height)
      else if s.inLen < 13 then t.result = some (.fail .unexpectedEof .channels)
      else if ¬(s.inByte 12 = 3 ∨ s.inByte 12 = 4) then
        t.result = some (.fail .invalidChannelCount .channels)
      else if s.inLen < 14 then t.result = some (.fail .unexpectedEof .colorspace)
      else if ¬(s.inByte 13 = 0 ∨ s.inByte 13 = 1) then
        t.result = some (.fail .invalidColorspace .colorspace)
      else t.stage = .opcode ∧ t.cur = 14

/-- R100, R107: a header stage that does not fail touches neither `PREV` nor the history nor the output. -/
def Obligations.HeaderLeavesPixelState : Prop :=
  ∀ s t : State, step s = .next t → 1 ≤ stageCode s.stage → stageCode s.stage ≤ 5 → t.stage ≠ .failed →
    t.prev = s.prev ∧ t.hist = s.hist ∧ t.out = s.out ∧ t.outLen = s.outLen

/-- R24, R222: in a running stage a step that does not fail writes each header register only in its own stage, and `TARGET`
only in `S_COLORSPACE`; no opcode writes one. -/
def Obligations.HeaderRegistersWrittenInTheirStage : Prop :=
  ∀ s t : State, Running s → step s = .next t → t.stage ≠ .failed →
    (s.stage ≠ .width → t.width = s.width) ∧ (s.stage ≠ .height → t.height = s.height) ∧
    (s.stage ≠ .channels → t.channels = s.channels) ∧
    (s.stage ≠ .colorspace → t.colorspace = s.colorspace ∧ t.target = s.target)

/-! ## The opcodes -/

/-- R120: RGB takes its three payload bytes and the alpha of `PREV`, in images of either channel count; the bytes
`FE r g b` at the cursor run it; fewer than three payload bytes raise `UnexpectedEof`. -/
def Obligations.RgbKeepsAlpha : Prop :=
  (∀ (r g b : Byte) (s : State), ∃ t, exec (.rgb r g b) s = .next t ∧ Committed s t 4 ⟨r, g, b, s.prev.a⟩) ∧
  (∀ (r g b : Byte) (s : State), OpcodeReady s → InputHas s s.cur [0xFE, r, g, b] → step s = exec (.rgb r g b) s.dropStart) ∧
  (∀ s : State, OpcodeReady s → InputHas s s.cur [0xFE] → s.inLen < s.cur + 4 →
    ∃ t, step s = .next t ∧ Raises s t .unexpectedEof)

/-- R121: RGBA takes its four payload bytes, in images of either channel count; the bytes `FF r g b a` at the
cursor run it; fewer than four payload bytes raise `UnexpectedEof`. -/
def Obligations.RgbaTakesAllChannels : Prop :=
  (∀ (r g b a : Byte) (s : State), ∃ t, exec (.rgba r g b a) s = .next t ∧ Committed s t 5 ⟨r, g, b, a⟩) ∧
  (∀ (r g b a : Byte) (s : State), OpcodeReady s → InputHas s s.cur [0xFF, r, g, b, a] →
    step s = exec (.rgba r g b a) s.dropStart) ∧
  (∀ s : State, OpcodeReady s → InputHas s s.cur [0xFF] → s.inLen < s.cur + 5 →
    ∃ t, step s = .next t ∧ Raises s t .unexpectedEof)

/-- R130: INDEX takes the pixel of the slot it names verbatim, read before the step's write; the byte `00iiiiii` at the
cursor runs it; it never fails. -/
def Obligations.IndexTakesSlot : Prop :=
  (∀ (i : BitVec 6) (s : State), ∃ t, exec (.index i) s = .next t ∧
    ∀ p : Pixel, s.hist[i.toNat]? = some p → Committed s t 1 p) ∧
  (∀ (i : BitVec 6) (b : Byte) (s : State), b.toNat = i.toNat → OpcodeReady s → InputHas s s.cur [b] →
    step s = exec (.index i) s.dropStart)

/-- R140: DIFF adds `field - 2` to each of red, green and blue modulo 256 and copies alpha; the byte `01rrggbb` at the
cursor runs it. That red lies in bits 5:4, green in 3:2 and blue in 1:0 is the spec's decision D5 (R73), the model's log 11. -/
def Obligations.DiffWrapsModulo256 : Prop :=
  (∀ (fr fg fb : BitVec 2) (s : State), ∃ (t : State) (p : Pixel), exec (.diff fr fg fb) s = .next t ∧ Committed s t 1 p ∧
    (p.r.toNat : Int) = ((s.prev.r.toNat : Int) + (fr.toNat - 2)) % 256 ∧
    (p.g.toNat : Int) = ((s.prev.g.toNat : Int) + (fg.toNat - 2)) % 256 ∧
    (p.b.toNat : Int) = ((s.prev.b.toNat : Int) + (fb.toNat - 2)) % 256 ∧
    p.a = s.prev.a) ∧
  (∀ (fr fg fb : BitVec 2) (b : Byte) (s : State), b.toNat = 0x40 + fr.toNat * 16 + fg.toNat * 4 + fb.toNat → OpcodeReady s →
    InputHas s s.cur [b] → step s = exec (.diff fr fg fb) s.dropStart)

/-- R141: LUMA adds `dg = fdg - 32` to green, `frg + dg - 8` to red and `fbg + dg - 8` to blue modulo 256 and copies alpha; the
bytes `10gggggg rrrrbbbb` at the cursor run it; a missing payload byte raises `UnexpectedEof`. -/
def Obligations.LumaWrapsModulo256 : Prop :=
  (∀ (fdg : BitVec 6) (frg fbg : BitVec 4) (s : State), ∃ (t : State) (p : Pixel),
    exec (.luma fdg frg fbg) s = .next t ∧ Committed s t 2 p ∧
    (p.r.toNat : Int) = ((s.prev.r.toNat : Int) + (frg.toNat + (fdg.toNat - 32) - 8)) % 256 ∧
    (p.g.toNat : Int) = ((s.prev.g.toNat : Int) + (fdg.toNat - 32)) % 256 ∧
    (p.b.toNat : Int) = ((s.prev.b.toNat : Int) + (fbg.toNat + (fdg.toNat - 32) - 8)) % 256 ∧
    p.a = s.prev.a) ∧
  (∀ (fdg : BitVec 6) (frg fbg : BitVec 4) (b b2 : Byte) (s : State), b.toNat = 0x80 + fdg.toNat →
    b2.toNat = frg.toNat * 16 + fbg.toNat → OpcodeReady s → InputHas s s.cur [b, b2] →
    step s = exec (.luma fdg frg fbg) s.dropStart) ∧
  (∀ (s : State) (b : Byte), OpcodeReady s → 0x80 ≤ b.toNat → b.toNat ≤ 0xBF → InputHas s s.cur [b] →
    s.inLen = s.cur + 1 → ∃ t, step s = .next t ∧ Raises s t .unexpectedEof)

/-- R150: RUN appends the previous pixel `n + 1` times, whether or not the target is passed, and changes nothing else but the
cursor: neither `PREV` nor the history; the bytes `C0` to `FD` at the cursor run it. -/
def Obligations.RunRepeatsPrevious : Prop :=
  (∀ (n : BitVec 6) (s : State), ∃ t, exec (.run n) s = .next t ∧
    t.cur = s.cur + 1 ∧
    Appends s t (List.replicate (n.toNat + 1) (EmittedBytes s.channels s.prev)).flatten ∧
    t = { s with cur := t.cur, out := t.out, outLen := t.outLen }) ∧
  (∀ (n : BitVec 6) (b : Byte) (s : State), n.toNat ≤ 61 → b.toNat = 0xC0 + n.toNat → OpcodeReady s → InputHas s s.cur [b] →
    step s = exec (.run n) s.dropStart)

/-- R140 (e), S3: a pixel whose red, green and blue each lie within -2 to 1 of the previous pixel, modulo 256, and whose alpha
is the same, is recovered exactly from the DIFF it assembles to. -/
def Obligations.DiffRoundTrip : Prop :=
  ∀ (s : State) (p : Pixel) (dr dg db : Int), -2 ≤ dr → dr ≤ 1 → -2 ≤ dg → dg ≤ 1 → -2 ≤ db → db ≤ 1 →
    (p.r.toNat : Int) = (s.prev.r.toNat + dr) % 256 → (p.g.toNat : Int) = (s.prev.g.toNat + dg) % 256 →
    (p.b.toNat : Int) = (s.prev.b.toNat + db) % 256 → p.a = s.prev.a →
    ∃ (i : Instr) (t : State), asmDiff dr dg db = some i ∧ exec i s = .next t ∧ t.prev = p

/-- R141 (e), S4: the same for LUMA, with dg within -32 to 31 and dr - dg and db - dg within -8 to 7. -/
def Obligations.LumaRoundTrip : Prop :=
  ∀ (s : State) (p : Pixel) (dr dg db : Int), -32 ≤ dg → dg ≤ 31 → -8 ≤ dr - dg → dr - dg ≤ 7 → -8 ≤ db - dg →
    db - dg ≤ 7 →
    (p.r.toNat : Int) = (s.prev.r.toNat + dr) % 256 → (p.g.toNat : Int) = (s.prev.g.toNat + dg) % 256 →
    (p.b.toNat : Int) = (s.prev.b.toNat + db) % 256 → p.a = s.prev.a →
    ∃ (i : Instr) (t : State), asmLuma dg (dr - dg) (db - dg) = some i ∧ exec i s = .next t ∧ t.prev = p

/-- R161: the hash does not depend on the width of the arithmetic, from 6 bits on, nor on bits 7:6 of a channel. -/
def Obligations.HashIndependentOfWidth : Prop :=
  ∀ p : Pixel,
    (∀ k : Nat, 6 ≤ k → (pixelHash p).val =
      ((p.r.toNat * 3 % 2 ^ k + p.g.toNat * 5 % 2 ^ k + p.b.toNat * 7 % 2 ^ k + p.a.toNat * 11 % 2 ^ k) % 2 ^ k) % 64) ∧
    (pixelHash p).val =
      (3 * (p.r.toNat % 64) + 5 * (p.g.toNat % 64) + 7 * (p.b.toNat % 64) + 11 * (p.a.toNat % 64)) % 64

/-- R163: an opcode writes one slot at most, that of the hash of the new previous pixel; RUN writes none. Every other
opcode leaves the new previous pixel in that slot, whatever the slot held: a collision is resolved by the last write. -/
def Obligations.HistoryWritesOneSlot : Prop :=
  ∀ (i : Instr) (s t : State), i.stage = .opcode → exec i s = .next t →
    (∀ j : Fin 64, t.hist.get j = s.hist.get j ∨ (j = pixelHash t.prev ∧ t.hist.get j = t.prev ∧ ∀ n, i ≠ .run n)) ∧
    ((∀ n, i ≠ .run n) → t.hist.get (pixelHash t.prev) = t.prev)

/-- R120, R121, R130 (e), R140 (d), R141 (d), R150: alpha changes only by an RGBA, or by an INDEX, which takes it from a
history slot. -/
def Obligations.AlphaOnlyFromRgbaOrHistory : Prop :=
  ∀ (i : Instr) (s t : State), i.stage = .opcode → exec i s = .next t → t.prev.a ≠ s.prev.a →
    (∃ r g b, i = .rgba r g b t.prev.a) ∨ (∃ k : BitVec 6, i = .index k ∧ s.hist[k.toNat]? = some t.prev)

/-- R130 (f), R166: INDEX of the slot that holds `PREV` is exactly a run of one pixel. -/
def Obligations.IndexOfPreviousIsRunOfOne : Prop :=
  ∀ (s : State) (i : BitVec 6), i.toNat = (pixelHash s.prev).val → s.hist[i.toNat]? = some s.prev →
    exec (.index i) s = exec (.run 0) s

/-! ## The end -/

/-- R175: END. The eight bytes at the cursor are compared whole; the marker moves on to `S_DONE` and changes nothing else, any
other eight bytes raise `InvalidEndMarker`, fewer raise `UnexpectedEof` whatever they are. -/
def Obligations.EndMarkIsChecked : Prop :=
  (∀ s : State, exec (.endMark 1) s = .next { s with cur := s.cur + 8, stage := .done }) ∧
  (∀ (e : BitVec 64) (s : State), e ≠ 1 → ∃ t, exec (.endMark e) s = .next t ∧ Raises s t .invalidEndMarker) ∧
  (∀ s : State, s.stage = .endMark → InputHas s s.cur [0, 0, 0, 0, 0, 0, 0, 1] →
    step s = .next { s with cur := s.cur + 8, stage := .done, ctrlStart := false }) ∧
  (∀ (s : State) (bs : List Byte), s.stage = .endMark → bs.length = 8 → InputHas s s.cur bs →
    bs ≠ [0, 0, 0, 0, 0, 0, 0, 1] → ∃ t, step s = .next t ∧ Raises s t .invalidEndMarker) ∧
  (∀ s : State, s.stage = .endMark → s.inLen < s.cur + 8 → ∃ t, step s = .next t ∧ Raises s t .unexpectedEof)

/-- R177: a header that asks for no pixels is followed at once by the end marker, and the decode succeeds with an empty
buffer. -/
def Obligations.ZeroPixelImageSucceeds : Prop :=
  ∀ (s : State) (v : Byte), s.stage = .colorspace → s.outLen = 0 → s.width = 0 ∨ s.height = 0 → v = 0 ∨ v = 1 →
    InputHas s s.cur [v, 0, 0, 0, 0, 0, 0, 0, 1] →
    ∃ t, Sys2Proof.core.run 3 s = .next t ∧ t.stage = .done ∧ t.cur = s.cur + 9 ∧
      t.result = some (.ok ⟨s.width, s.height, s.channels, v, []⟩)

/-- R178, R180, R173: at `S_DONE` of a coherent machine the result is the image of the header with exactly `OUT_LEN` bytes,
which is at least `WIDTH * HEIGHT * CHANNELS` and at most `61 * CHANNELS` more (a RUN may pass the target, D12). -/
def Obligations.ResultLength : Prop :=
  ∀ s : State, Coherent s → s.stage = .done →
    ∃ bs : List Byte, s.result = some (.ok ⟨s.width, s.height, s.channels, s.colorspace, bs⟩) ∧ bs.length = s.outLen ∧
      s.width.toNat * s.height.toNat * s.channels.toNat ≤ bs.length ∧
      bs.length ≤ s.width.toNat * s.height.toNat * s.channels.toNat + 61 * s.channels.toNat

/-- R173, R180: no opcode but a RUN that is too long passes the target. -/
def Obligations.OnlyLongRunPassesTarget : Prop :=
  ∀ (i : Instr) (s t : State), i.stage = .opcode → HeaderRead s → s.outLen < s.target →
    (∀ n : BitVec 6, i = .run n → s.outLen + (n.toNat + 1) * s.channels.toNat ≤ s.target) →
    exec i s = .next t → t.outLen ≤ t.target

/-- R176, R62 (c): a step that does not fail depends on no input byte at or after the cursor it leaves: another input that
agrees before it, and is long enough, gives the same step. For the bytes behind the end marker this is the spec's decision D13. -/
def Obligations.LaterBytesDoNotMatter : Prop :=
  ∀ (s t : State) (input' : Memory) (inLen' : Nat), Running s → step s = .next t → t.stage ≠ .failed →
    t.cur ≤ inLen' → (∀ a, a < t.cur → State.inByte { s with input := input' } a = s.inByte a) →
    step { s with input := input', inLen := inLen' } = .next { t with input := input', inLen := inLen' }

/-- R24, R105: the colorspace tag does not affect decoding: once it is recorded, a step from a state that differs in nothing
else gives a state that differs in nothing else. A step that fails gives the same failed state, `COLORSPACE` included: that rests on
log 1, by which the registers hold free values there that do not depend on what they held. -/
def Obligations.ColorspaceDoesNotAffectDecoding : Prop :=
  ∀ (s t : State) (v : Byte), s.stage = .opcode ∨ s.stage = .endMark → step s = .next t →
    (t.stage ≠ .failed → step { s with colorspace := v } = .next { t with colorspace := v }) ∧
    (t.stage = .failed → step { s with colorspace := v } = .next t)

/-! ## Reset, invariants, whole decodes -/

/-- R231, R27: a `START` written in `S_IDLE`, `S_DONE` or `S_FAILED`, on a stream whose image fits the instance, makes the next
step the decode reset, which gives every piece of decoder state its value and leaves the host's input alone. That the write is
acted on in the step after it is the model's choice, log 3. (Where the image does not fit: `StartNeedsRoomForTheImage`.) -/
def Obligations.StartPerformsDecodeReset : Prop :=
  ∀ (p : Config.Params) (s : State), Quiescent s → fits p s.placedHeader = true →
    ∃ u t : State, hostWrite p .ctrl 1 s = .next u ∧ step u = .next t ∧
    t.prev = ⟨0, 0, 0, 255⟩ ∧
    (∀ i : Fin 64, t.hist.get i = if i.val = 53 then ⟨0, 0, 0, 255⟩ else ⟨0, 0, 0, 0⟩) ∧
    t.out = [] ∧ t.outLen = 0 ∧ t.cur = 0 ∧ t.err = none ∧ t.errStage = .idle ∧ t.stage = .magic ∧
    t.input = s.input ∧ t.inLen = s.inLen

/-- R166: `HIST[Hash(PREV)] = PREV`, and every slot holds its reset value or a pixel of its own hash: every step keeps it,
and the decode reset establishes it. That a step into `S_FAILED` keeps it too is the model's choice, log 6 (R34 gives `PREV` and
the history no value there). -/
def Obligations.HistoryInvariant : Prop :=
  (∀ s : State, HistoryCoherent (decodeReset s)) ∧
  ∀ s t : State, HistoryCoherent s → step s = .next t → HistoryCoherent t

/-- R23 to R28, R59, R166, R171, R173, R239: every step keeps the machine coherent. What it says of `S_FAILED` beyond `ERR` and
`ERR_STAGE` is the model's choice: an empty output (log 5) and the history invariant (log 6). -/
def Obligations.StepKeepsCoherence : Prop :=
  ∀ s t : State, Coherent s → step s = .next t → Coherent t

/-- R33, R231: the decode reset makes any state coherent whose input is in canonical form, whatever it held before. -/
def Obligations.DecodeResetEstablishesCoherence : Prop :=
  ∀ s : State, Memory.wf s.input → Coherent (decodeReset s)

/-- R33: the machine is coherent right after reset. (The values of the registers R33 leaves unspecified are the model's, log
2; no part of `Coherent` rests on them in `S_MAGIC`.) -/
def Obligations.ResetIsCoherent : Prop := Coherent State.reset

/-- R25, R26, D3: `TARGET` and `OUT_LEN` never exceed their 66 bits. -/
def Obligations.LengthsFitSixtySixBits : Prop :=
  ∀ s t : State, Coherent s → FitsSixtySixBits s → step s = .next t → FitsSixtySixBits t

/-- The memories keep their one canonical form through every step and every move of the host (the model's convention, log 4). -/
def Obligations.MemoriesStayCanonical : Prop :=
  (∀ s t : State, MemoriesCanonical s → step s = .next t → MemoriesCanonical t) ∧
  (∀ (s t : State) (p : Config.Params) (reg : HostReg) (v : Nat), MemoriesCanonical s → hostWrite p reg v s = .next t → MemoriesCanonical t) ∧
  (∀ (s t : State) (a : Nat) (b : Byte), MemoriesCanonical s → hostWriteIn a b s = .next t → MemoriesCanonical t) ∧
  (∀ (s t : State) (p : Config.Params) (stream : List Byte), MemoriesCanonical s → launch p stream s = .next t →
    MemoriesCanonical t)

/-- R174: every step of a running stage raises, or moves `STAGE` forward, or moves `CUR` by at least 1 and `OUT_LEN` by at
least 3; and every decode ends within `IN_LEN + 8` steps. -/
def Obligations.EveryDecodeEnds : Prop :=
  (∀ s t : State, Running s → step s = .next t →
    t.stage = .failed ∨ stageCode s.stage < stageCode t.stage ∨
    (s.stage = .opcode ∧ t.stage = .opcode ∧ s.cur + 1 ≤ t.cur ∧ s.outLen + 3 ≤ t.outLen)) ∧
  (∀ s : State, Running s →
    ∃ (k : Nat) (t : State), k ≤ s.inLen + 8 ∧ Sys2Proof.core.run k s = .next t ∧ Ended t)

/-- R13, R32: two decodes with equal `IN` (all of the space, bytes beyond `IN_LEN` too) and equal `IN_LEN` go the same way whatever
else the machine held: step for step the same stage and the same result. Where bytes below `IN_LEN` are not placed this rests on
log 4, by which they are free values of their offsets, the same in both. -/
def Obligations.EqualStreamsGiveEqualResults : Prop :=
  ∀ (s s' : State) (k : Nat) (t : State), s'.input = s.input → s'.inLen = s.inLen →
    Sys2Proof.core.run k (decodeReset s) = .next t →
    ∃ t', Sys2Proof.core.run k (decodeReset s') = .next t' ∧ t'.stage = t.stage ∧ t'.result = t.result

/-! ## The host -/

/-- R239, D10: a `START` written while `BUSY` is ignored, and one that waited in a running stage (a bit of State, log 3) would
be forgotten. -/
def Obligations.StartWhileBusyIgnored : Prop :=
  (∀ (p : Config.Params) (s : State) (v : Nat), Running s → hostWrite p .ctrl v s = .next s) ∧
  (∀ s : State, Running s → step { s with ctrlStart := true } = step { s with ctrlStart := false })

/-- R230 (a), R27: power-on reset, from anything: `S_IDLE`, no failure, and no step until a `START`. That none waits after
power-on, so that no step is enabled, is the model's deduction, log 7; that the unnamed bits of `STATUS` are 0 is its choice, log 14. -/
def Obligations.PowerOnWaitsForStart : Prop :=
  ∀ junk : State, (powerOn junk).stage = .idle ∧ hostRead .err (powerOn junk) = .ok 0 ∧
    hostRead .status (powerOn junk) = .ok 0 ∧ step (powerOn junk) = .fault .noStepEnabled ∧
    (powerOn junk).result = none

/-- R31, R29, R235: the host reads `STATUS` and `ERR` always, with exactly one flag up outside `S_IDLE`, and `ERR` the failure and
its stage in `S_FAILED` and 0 elsewhere; the result registers only while the result is there. The refusals are the model's
treatment (U6, log 12), as is that a waiting `START` closes the windows but for `STATUS` and `ERR` (log 3); the bits R31 does not name read as 0 (log 14).
That `IN_LEN` is read in every stage is the model's choice too, log 15. -/
def Obligations.HostReadWindows : Prop :=
  ∀ s : State,
    hostRead .ctrl s = .ok 0 ∧ hostRead .inLen s = .ok s.inLen ∧
    hostRead .status s = .ok ((if 1 ≤ stageCode s.stage ∧ stageCode s.stage ≤ 7 then 1 else 0) +
      (if s.stage = .done then 2 else 0) + (if s.stage = .failed then 4 else 0) + 16 * stageCode s.stage) ∧
    (s.stage ≠ .failed → hostRead .err s = .ok 0) ∧
    (s.stage = .failed → hostRead .err s = .ok (errCode s.err + 16 * stageCode s.errStage)) ∧
    (s.stage = .done → s.ctrlStart = false →
      hostRead .width s = .ok s.width.toNat ∧ hostRead .height s = .ok s.height.toNat ∧
      hostRead .channels s = .ok s.channels.toNat ∧ hostRead .colorspace s = .ok s.colorspace.toNat ∧
      hostRead .outLen s = .ok s.outLen ∧ hostRead .target s = .ok s.target) ∧
    (s.stage ≠ .done → ∀ reg : HostReg, 4 ≤ reg.number → hostRead reg s = .error .readOutsideWindow)

/-- R237, R238; that the other reads and writes are refused is the model's treatment, log 12 (U4, U5): the host reads a byte of `OUT` only at `S_DONE` and below `OUT_LEN`, where a coherent machine has every one;
and it cannot change the input while a decode runs. -/
def Obligations.HostBuffersGuarded : Prop :=
  (∀ (s : State) (a : Nat), Coherent s → s.stage = .done → s.ctrlStart = false → a < s.outLen →
    ∃ b, hostReadOut a s = .ok b ∧ s.out.read a = some b) ∧
  (∀ (s : State) (a : Nat), s.stage ≠ .done ∨ s.outLen ≤ a → hostReadOut a s = .error .outputNotReady) ∧
  (∀ (s : State) (a : Nat) (b : Byte), Running s → hostWriteIn a b s = .refused .inputInUse) ∧
  (∀ (p : Config.Params) (s : State) (v : Nat), Running s → hostWrite p .inLen v s = .refused .inputInUse)

/-- R234, R50: a launch of a stream whose image fits the instance, with no decode in flight, places exactly the stream; the next
step (log 3) is the decode reset, after which its bytes lie at offsets 0 to `IN_LEN - 1`, the machine at `S_MAGIC`. A launch of an
image that does not fit is refused, the model's treatment (log 12, the spec's D4 and U3): `TARGET + 61 * CHANNELS` over the
capacity, for a header the decoder accepts (log 13). -/
def Obligations.LaunchPlacesStream : Prop :=
  (∀ (p : Config.Params) (stream : List Byte) (s : State), s.inUse = false → fits p stream = true →
    ∃ u t : State, launch p stream s = .next u ∧ step u = .next t ∧ t.stage = .magic ∧ t.cur = 0 ∧
      t.inLen = stream.length ∧ InputHas t 0 stream ∧ InputPlaced t ∧ (Memory.wf s.input → Memory.wf t.input)) ∧
  (∀ (cap curBits : Nat) (rest : List Byte) (s : State) (w0 w1 w2 w3 h0 h1 h2 h3 c v : Byte), s.inUse = false →
    c = 3 ∨ c = 4 → v = 0 ∨ v = 1 →
    cap < (be32 w0 w1 w2 w3).toNat * (be32 h0 h1 h2 h3).toNat * c.toNat + 61 * c.toNat →
    launch ⟨curBits, some cap⟩ ([0x71, 0x6F, 0x69, 0x66, w0, w1, w2, w3, h0, h1, h2, h3, c, v] ++ rest) s =
      .refused .launchDoesNotFit)

/-- R181, R234 (3): a `START` in `S_IDLE`, `S_DONE` or `S_FAILED` is taken where the instance has no bound, where the header of
the placed stream is cut short or fails a check (so that there is no `TARGET`; log 13), and where `TARGET + 61 * CHANNELS` is
within the capacity; else it is refused, the model's treatment (log 12, the spec's D4 and U3). That a `START` taken
leaves the state as it was but for the bit that makes it wait is the model's choice, log 3. A write without bit 0 does nothing
(R30). -/
def Obligations.StartNeedsRoomForTheImage : Prop :=
  ∀ (curBits : Nat) (s : State), Quiescent s →
    (∀ (cap : Option Nat) (v : Nat), v % 2 = 0 → hostWrite ⟨curBits, cap⟩ .ctrl v s = .next s) ∧
    (hostWrite ⟨curBits, none⟩ .ctrl 1 s = .next { s with ctrlStart := true }) ∧
    (∀ cap : Nat,
      s.inLen < 14 ∨ s.inBytes 0 4 ≠ [0x71, 0x6F, 0x69, 0x66] ∨ ¬(s.inByte 12 = 3 ∨ s.inByte 12 = 4) ∨
        ¬(s.inByte 13 = 0 ∨ s.inByte 13 = 1) →
      hostWrite ⟨curBits, some cap⟩ .ctrl 1 s = .next { s with ctrlStart := true }) ∧
    (∀ (cap : Nat) (w0 w1 w2 w3 h0 h1 h2 h3 c v : Byte),
      InputHas s 0 [0x71, 0x6F, 0x69, 0x66, w0, w1, w2, w3, h0, h1, h2, h3, c, v] → c = 3 ∨ c = 4 → v = 0 ∨ v = 1 →
      hostWrite ⟨curBits, some cap⟩ .ctrl 1 s =
        if (be32 w0 w1 w2 w3).toNat * (be32 h0 h1 h2 h3).toNat * c.toNat + 61 * c.toNat ≤ cap then
          .next { s with ctrlStart := true }
        else .refused .launchDoesNotFit)
end

