-- ==== Sys2Proof/Laws/State.lean ====
section
/-! SUPPORT. Beside the state: for each named update, each field after it. All are true by rfl, so that no proof unfolds a
record update. (Where a field takes a free value, `raise`'s header registers, there is no lemma: nothing is known of it.) -/

namespace Sys2Proof.Machine

/-! ### State.advance -/

@[simp] theorem State.advance_stage (s : State) (n : Nat) : (s.advance n).stage = s.stage := rfl
@[simp] theorem State.advance_err (s : State) (n : Nat) : (s.advance n).err = s.err := rfl
@[simp] theorem State.advance_errStage (s : State) (n : Nat) : (s.advance n).errStage = s.errStage := rfl
@[simp] theorem State.advance_ctrlStart (s : State) (n : Nat) : (s.advance n).ctrlStart = s.ctrlStart := rfl
@[simp] theorem State.advance_input (s : State) (n : Nat) : (s.advance n).input = s.input := rfl
@[simp] theorem State.advance_inLen (s : State) (n : Nat) : (s.advance n).inLen = s.inLen := rfl
@[simp] theorem State.advance_cur (s : State) (n : Nat) : (s.advance n).cur = s.cur + n := rfl
@[simp] theorem State.advance_width (s : State) (n : Nat) : (s.advance n).width = s.width := rfl
@[simp] theorem State.advance_height (s : State) (n : Nat) : (s.advance n).height = s.height := rfl
@[simp] theorem State.advance_channels (s : State) (n : Nat) : (s.advance n).channels = s.channels := rfl
@[simp] theorem State.advance_colorspace (s : State) (n : Nat) : (s.advance n).colorspace = s.colorspace := rfl
@[simp] theorem State.advance_target (s : State) (n : Nat) : (s.advance n).target = s.target := rfl
@[simp] theorem State.advance_prev (s : State) (n : Nat) : (s.advance n).prev = s.prev := rfl
@[simp] theorem State.advance_hist (s : State) (n : Nat) : (s.advance n).hist = s.hist := rfl
@[simp] theorem State.advance_out (s : State) (n : Nat) : (s.advance n).out = s.out := rfl
@[simp] theorem State.advance_outLen (s : State) (n : Nat) : (s.advance n).outLen = s.outLen := rfl
@[simp] theorem State.advance_freeCount (s : State) (n : Nat) : (s.advance n).freeCount = s.freeCount := rfl

/-! ### State.goto -/

@[simp] theorem State.goto_stage (s : State) (st : Stage) : (s.goto st).stage = st := rfl
@[simp] theorem State.goto_err (s : State) (st : Stage) : (s.goto st).err = s.err := rfl
@[simp] theorem State.goto_errStage (s : State) (st : Stage) : (s.goto st).errStage = s.errStage := rfl
@[simp] theorem State.goto_ctrlStart (s : State) (st : Stage) : (s.goto st).ctrlStart = s.ctrlStart := rfl
@[simp] theorem State.goto_input (s : State) (st : Stage) : (s.goto st).input = s.input := rfl
@[simp] theorem State.goto_inLen (s : State) (st : Stage) : (s.goto st).inLen = s.inLen := rfl
@[simp] theorem State.goto_cur (s : State) (st : Stage) : (s.goto st).cur = s.cur := rfl
@[simp] theorem State.goto_width (s : State) (st : Stage) : (s.goto st).width = s.width := rfl
@[simp] theorem State.goto_height (s : State) (st : Stage) : (s.goto st).height = s.height := rfl
@[simp] theorem State.goto_channels (s : State) (st : Stage) : (s.goto st).channels = s.channels := rfl
@[simp] theorem State.goto_colorspace (s : State) (st : Stage) : (s.goto st).colorspace = s.colorspace := rfl
@[simp] theorem State.goto_target (s : State) (st : Stage) : (s.goto st).target = s.target := rfl
@[simp] theorem State.goto_prev (s : State) (st : Stage) : (s.goto st).prev = s.prev := rfl
@[simp] theorem State.goto_hist (s : State) (st : Stage) : (s.goto st).hist = s.hist := rfl
@[simp] theorem State.goto_out (s : State) (st : Stage) : (s.goto st).out = s.out := rfl
@[simp] theorem State.goto_outLen (s : State) (st : Stage) : (s.goto st).outLen = s.outLen := rfl
@[simp] theorem State.goto_freeCount (s : State) (st : Stage) : (s.goto st).freeCount = s.freeCount := rfl

/-! ### State.dropStart -/

@[simp] theorem State.dropStart_stage (s : State) : s.dropStart.stage = s.stage := rfl
@[simp] theorem State.dropStart_err (s : State) : s.dropStart.err = s.err := rfl
@[simp] theorem State.dropStart_errStage (s : State) : s.dropStart.errStage = s.errStage := rfl
@[simp] theorem State.dropStart_ctrlStart (s : State) : s.dropStart.ctrlStart = false := rfl
@[simp] theorem State.dropStart_input (s : State) : s.dropStart.input = s.input := rfl
@[simp] theorem State.dropStart_inLen (s : State) : s.dropStart.inLen = s.inLen := rfl
@[simp] theorem State.dropStart_cur (s : State) : s.dropStart.cur = s.cur := rfl
@[simp] theorem State.dropStart_width (s : State) : s.dropStart.width = s.width := rfl
@[simp] theorem State.dropStart_height (s : State) : s.dropStart.height = s.height := rfl
@[simp] theorem State.dropStart_channels (s : State) : s.dropStart.channels = s.channels := rfl
@[simp] theorem State.dropStart_colorspace (s : State) : s.dropStart.colorspace = s.colorspace := rfl
@[simp] theorem State.dropStart_target (s : State) : s.dropStart.target = s.target := rfl
@[simp] theorem State.dropStart_prev (s : State) : s.dropStart.prev = s.prev := rfl
@[simp] theorem State.dropStart_hist (s : State) : s.dropStart.hist = s.hist := rfl
@[simp] theorem State.dropStart_out (s : State) : s.dropStart.out = s.out := rfl
@[simp] theorem State.dropStart_outLen (s : State) : s.dropStart.outLen = s.outLen := rfl
@[simp] theorem State.dropStart_freeCount (s : State) : s.dropStart.freeCount = s.freeCount := rfl

/-! ### State.append -/

@[simp] theorem State.append_stage (s : State) (bs : List Byte) : (s.append bs).stage = s.stage := rfl
@[simp] theorem State.append_err (s : State) (bs : List Byte) : (s.append bs).err = s.err := rfl
@[simp] theorem State.append_errStage (s : State) (bs : List Byte) : (s.append bs).errStage = s.errStage := rfl
@[simp] theorem State.append_ctrlStart (s : State) (bs : List Byte) : (s.append bs).ctrlStart = s.ctrlStart := rfl
@[simp] theorem State.append_input (s : State) (bs : List Byte) : (s.append bs).input = s.input := rfl
@[simp] theorem State.append_inLen (s : State) (bs : List Byte) : (s.append bs).inLen = s.inLen := rfl
@[simp] theorem State.append_cur (s : State) (bs : List Byte) : (s.append bs).cur = s.cur := rfl
@[simp] theorem State.append_width (s : State) (bs : List Byte) : (s.append bs).width = s.width := rfl
@[simp] theorem State.append_height (s : State) (bs : List Byte) : (s.append bs).height = s.height := rfl
@[simp] theorem State.append_channels (s : State) (bs : List Byte) : (s.append bs).channels = s.channels := rfl
@[simp] theorem State.append_colorspace (s : State) (bs : List Byte) : (s.append bs).colorspace = s.colorspace := rfl
@[simp] theorem State.append_target (s : State) (bs : List Byte) : (s.append bs).target = s.target := rfl
@[simp] theorem State.append_prev (s : State) (bs : List Byte) : (s.append bs).prev = s.prev := rfl
@[simp] theorem State.append_hist (s : State) (bs : List Byte) : (s.append bs).hist = s.hist := rfl
@[simp] theorem State.append_out (s : State) (bs : List Byte) : (s.append bs).out = s.out.writeBytes s.outLen bs := rfl
@[simp] theorem State.append_outLen (s : State) (bs : List Byte) : (s.append bs).outLen = s.outLen + bs.length := rfl
@[simp] theorem State.append_freeCount (s : State) (bs : List Byte) : (s.append bs).freeCount = s.freeCount := rfl

/-! ### State.remember -/

@[simp] theorem State.remember_stage (s : State) (p : Pixel) : (s.remember p).stage = s.stage := rfl
@[simp] theorem State.remember_err (s : State) (p : Pixel) : (s.remember p).err = s.err := rfl
@[simp] theorem State.remember_errStage (s : State) (p : Pixel) : (s.remember p).errStage = s.errStage := rfl
@[simp] theorem State.remember_ctrlStart (s : State) (p : Pixel) : (s.remember p).ctrlStart = s.ctrlStart := rfl
@[simp] theorem State.remember_input (s : State) (p : Pixel) : (s.remember p).input = s.input := rfl
@[simp] theorem State.remember_inLen (s : State) (p : Pixel) : (s.remember p).inLen = s.inLen := rfl
@[simp] theorem State.remember_cur (s : State) (p : Pixel) : (s.remember p).cur = s.cur := rfl
@[simp] theorem State.remember_width (s : State) (p : Pixel) : (s.remember p).width = s.width := rfl
@[simp] theorem State.remember_height (s : State) (p : Pixel) : (s.remember p).height = s.height := rfl
@[simp] theorem State.remember_channels (s : State) (p : Pixel) : (s.remember p).channels = s.channels := rfl
@[simp] theorem State.remember_colorspace (s : State) (p : Pixel) : (s.remember p).colorspace = s.colorspace := rfl
@[simp] theorem State.remember_target (s : State) (p : Pixel) : (s.remember p).target = s.target := rfl
@[simp] theorem State.remember_prev (s : State) (p : Pixel) : (s.remember p).prev = p := rfl
@[simp] theorem State.remember_hist (s : State) (p : Pixel) : (s.remember p).hist = s.hist.set (pixelHash p).val p (pixelHash p).isLt := rfl
@[simp] theorem State.remember_out (s : State) (p : Pixel) : (s.remember p).out = s.out := rfl
@[simp] theorem State.remember_outLen (s : State) (p : Pixel) : (s.remember p).outLen = s.outLen := rfl
@[simp] theorem State.remember_freeCount (s : State) (p : Pixel) : (s.remember p).freeCount = s.freeCount := rfl

/-! ### endLoop -/

@[simp] theorem endLoop_stage (s : State) : (endLoop s).stage = .endMark := rfl
@[simp] theorem endLoop_err (s : State) : (endLoop s).err = s.err := rfl
@[simp] theorem endLoop_errStage (s : State) : (endLoop s).errStage = s.errStage := rfl
@[simp] theorem endLoop_ctrlStart (s : State) : (endLoop s).ctrlStart = s.ctrlStart := rfl
@[simp] theorem endLoop_input (s : State) : (endLoop s).input = s.input := rfl
@[simp] theorem endLoop_inLen (s : State) : (endLoop s).inLen = s.inLen := rfl
@[simp] theorem endLoop_cur (s : State) : (endLoop s).cur = s.cur := rfl
@[simp] theorem endLoop_width (s : State) : (endLoop s).width = s.width := rfl
@[simp] theorem endLoop_height (s : State) : (endLoop s).height = s.height := rfl
@[simp] theorem endLoop_channels (s : State) : (endLoop s).channels = s.channels := rfl
@[simp] theorem endLoop_colorspace (s : State) : (endLoop s).colorspace = s.colorspace := rfl
@[simp] theorem endLoop_target (s : State) : (endLoop s).target = s.target := rfl
@[simp] theorem endLoop_prev (s : State) : (endLoop s).prev = s.prev := rfl
@[simp] theorem endLoop_hist (s : State) : (endLoop s).hist = s.hist := rfl
@[simp] theorem endLoop_out (s : State) : (endLoop s).out = s.out := rfl
@[simp] theorem endLoop_outLen (s : State) : (endLoop s).outLen = s.outLen := rfl
@[simp] theorem endLoop_freeCount (s : State) : (endLoop s).freeCount = s.freeCount := rfl

/-! ### emit -/

@[simp] theorem emit_stage (p : Pixel) (s : State) : (emit p s).stage = s.stage := rfl
@[simp] theorem emit_err (p : Pixel) (s : State) : (emit p s).err = s.err := rfl
@[simp] theorem emit_errStage (p : Pixel) (s : State) : (emit p s).errStage = s.errStage := rfl
@[simp] theorem emit_ctrlStart (p : Pixel) (s : State) : (emit p s).ctrlStart = s.ctrlStart := rfl
@[simp] theorem emit_input (p : Pixel) (s : State) : (emit p s).input = s.input := rfl
@[simp] theorem emit_inLen (p : Pixel) (s : State) : (emit p s).inLen = s.inLen := rfl
@[simp] theorem emit_cur (p : Pixel) (s : State) : (emit p s).cur = s.cur := rfl
@[simp] theorem emit_width (p : Pixel) (s : State) : (emit p s).width = s.width := rfl
@[simp] theorem emit_height (p : Pixel) (s : State) : (emit p s).height = s.height := rfl
@[simp] theorem emit_channels (p : Pixel) (s : State) : (emit p s).channels = s.channels := rfl
@[simp] theorem emit_colorspace (p : Pixel) (s : State) : (emit p s).colorspace = s.colorspace := rfl
@[simp] theorem emit_target (p : Pixel) (s : State) : (emit p s).target = s.target := rfl
@[simp] theorem emit_prev (p : Pixel) (s : State) : (emit p s).prev = s.prev := rfl
@[simp] theorem emit_hist (p : Pixel) (s : State) : (emit p s).hist = s.hist := rfl
@[simp] theorem emit_out (p : Pixel) (s : State) : (emit p s).out = s.out.writeBytes s.outLen (pixelBytes s.channels p) := rfl
@[simp] theorem emit_outLen (p : Pixel) (s : State) : (emit p s).outLen = s.outLen + (pixelBytes s.channels p).length := rfl
@[simp] theorem emit_freeCount (p : Pixel) (s : State) : (emit p s).freeCount = s.freeCount := rfl

/-! ### commit -/

@[simp] theorem commit_stage (p : Pixel) (s : State) : (commit p s).stage = s.stage := rfl
@[simp] theorem commit_err (p : Pixel) (s : State) : (commit p s).err = s.err := rfl
@[simp] theorem commit_errStage (p : Pixel) (s : State) : (commit p s).errStage = s.errStage := rfl
@[simp] theorem commit_ctrlStart (p : Pixel) (s : State) : (commit p s).ctrlStart = s.ctrlStart := rfl
@[simp] theorem commit_input (p : Pixel) (s : State) : (commit p s).input = s.input := rfl
@[simp] theorem commit_inLen (p : Pixel) (s : State) : (commit p s).inLen = s.inLen := rfl
@[simp] theorem commit_cur (p : Pixel) (s : State) : (commit p s).cur = s.cur := rfl
@[simp] theorem commit_width (p : Pixel) (s : State) : (commit p s).width = s.width := rfl
@[simp] theorem commit_height (p : Pixel) (s : State) : (commit p s).height = s.height := rfl
@[simp] theorem commit_channels (p : Pixel) (s : State) : (commit p s).channels = s.channels := rfl
@[simp] theorem commit_colorspace (p : Pixel) (s : State) : (commit p s).colorspace = s.colorspace := rfl
@[simp] theorem commit_target (p : Pixel) (s : State) : (commit p s).target = s.target := rfl
@[simp] theorem commit_prev (p : Pixel) (s : State) : (commit p s).prev = p := rfl
@[simp] theorem commit_hist (p : Pixel) (s : State) : (commit p s).hist = s.hist.set (pixelHash p).val p (pixelHash p).isLt := rfl
@[simp] theorem commit_out (p : Pixel) (s : State) : (commit p s).out = s.out.writeBytes s.outLen (pixelBytes s.channels p) := rfl
@[simp] theorem commit_outLen (p : Pixel) (s : State) : (commit p s).outLen = s.outLen + (pixelBytes s.channels p).length := rfl
@[simp] theorem commit_freeCount (p : Pixel) (s : State) : (commit p s).freeCount = s.freeCount := rfl

/-! ### raise -/

@[simp] theorem raise_stage (f : Failure) (s : State) : (raise f s).stage = .failed := rfl
@[simp] theorem raise_err (f : Failure) (s : State) : (raise f s).err = some f := rfl
@[simp] theorem raise_errStage (f : Failure) (s : State) : (raise f s).errStage = s.stage := rfl
@[simp] theorem raise_ctrlStart (f : Failure) (s : State) : (raise f s).ctrlStart = s.ctrlStart := rfl
@[simp] theorem raise_input (f : Failure) (s : State) : (raise f s).input = s.input := rfl
@[simp] theorem raise_inLen (f : Failure) (s : State) : (raise f s).inLen = s.inLen := rfl
@[simp] theorem raise_cur (f : Failure) (s : State) : (raise f s).cur = s.cur := rfl
@[simp] theorem raise_prev (f : Failure) (s : State) : (raise f s).prev = s.prev := rfl
@[simp] theorem raise_hist (f : Failure) (s : State) : (raise f s).hist = s.hist := rfl
@[simp] theorem raise_out (f : Failure) (s : State) : (raise f s).out = [] := rfl
@[simp] theorem raise_outLen (f : Failure) (s : State) : (raise f s).outLen = 0 := rfl
@[simp] theorem raise_freeCount (f : Failure) (s : State) : (raise f s).freeCount = s.freeCount + 5 := rfl

/-! ### decodeReset -/

@[simp] theorem decodeReset_stage (s : State) : (decodeReset s).stage = .magic := rfl
@[simp] theorem decodeReset_err (s : State) : (decodeReset s).err = none := rfl
@[simp] theorem decodeReset_errStage (s : State) : (decodeReset s).errStage = .idle := rfl
@[simp] theorem decodeReset_ctrlStart (s : State) : (decodeReset s).ctrlStart = false := rfl
@[simp] theorem decodeReset_input (s : State) : (decodeReset s).input = s.input := rfl
@[simp] theorem decodeReset_inLen (s : State) : (decodeReset s).inLen = s.inLen := rfl
@[simp] theorem decodeReset_cur (s : State) : (decodeReset s).cur = 0 := rfl
@[simp] theorem decodeReset_width (s : State) : (decodeReset s).width = 0 := rfl
@[simp] theorem decodeReset_height (s : State) : (decodeReset s).height = 0 := rfl
@[simp] theorem decodeReset_channels (s : State) : (decodeReset s).channels = 0 := rfl
@[simp] theorem decodeReset_colorspace (s : State) : (decodeReset s).colorspace = 0 := rfl
@[simp] theorem decodeReset_target (s : State) : (decodeReset s).target = 0 := rfl
@[simp] theorem decodeReset_prev (s : State) : (decodeReset s).prev = Pixel.initial := rfl
@[simp] theorem decodeReset_out (s : State) : (decodeReset s).out = [] := rfl
@[simp] theorem decodeReset_outLen (s : State) : (decodeReset s).outLen = 0 := rfl
@[simp] theorem decodeReset_freeCount (s : State) : (decodeReset s).freeCount = s.freeCount := rfl

/-! ### emitN -/

/-- A run leaves everything but the output as it was. -/
theorem emitN_frame (p : Pixel) (n : Nat) (s : State) :
    emitN p n s = { s with out := (emitN p n s).out, outLen := (emitN p n s).outLen } := by
  induction n generalizing s with
  | zero => rfl
  | succ n ih =>
    rw [emitN, ih]
    rfl

@[simp] theorem emitN_stage (p : Pixel) (n : Nat) (s : State) : (emitN p n s).stage = s.stage := by rw [emitN_frame]
@[simp] theorem emitN_err (p : Pixel) (n : Nat) (s : State) : (emitN p n s).err = s.err := by rw [emitN_frame]
@[simp] theorem emitN_errStage (p : Pixel) (n : Nat) (s : State) : (emitN p n s).errStage = s.errStage := by rw [emitN_frame]
@[simp] theorem emitN_ctrlStart (p : Pixel) (n : Nat) (s : State) : (emitN p n s).ctrlStart = s.ctrlStart := by rw [emitN_frame]
@[simp] theorem emitN_input (p : Pixel) (n : Nat) (s : State) : (emitN p n s).input = s.input := by rw [emitN_frame]
@[simp] theorem emitN_inLen (p : Pixel) (n : Nat) (s : State) : (emitN p n s).inLen = s.inLen := by rw [emitN_frame]
@[simp] theorem emitN_cur (p : Pixel) (n : Nat) (s : State) : (emitN p n s).cur = s.cur := by rw [emitN_frame]
@[simp] theorem emitN_width (p : Pixel) (n : Nat) (s : State) : (emitN p n s).width = s.width := by rw [emitN_frame]
@[simp] theorem emitN_height (p : Pixel) (n : Nat) (s : State) : (emitN p n s).height = s.height := by rw [emitN_frame]
@[simp] theorem emitN_channels (p : Pixel) (n : Nat) (s : State) : (emitN p n s).channels = s.channels := by rw [emitN_frame]
@[simp] theorem emitN_colorspace (p : Pixel) (n : Nat) (s : State) : (emitN p n s).colorspace = s.colorspace := by rw [emitN_frame]
@[simp] theorem emitN_target (p : Pixel) (n : Nat) (s : State) : (emitN p n s).target = s.target := by rw [emitN_frame]
@[simp] theorem emitN_prev (p : Pixel) (n : Nat) (s : State) : (emitN p n s).prev = s.prev := by rw [emitN_frame]
@[simp] theorem emitN_hist (p : Pixel) (n : Nat) (s : State) : (emitN p n s).hist = s.hist := by rw [emitN_frame]
@[simp] theorem emitN_freeCount (p : Pixel) (n : Nat) (s : State) : (emitN p n s).freeCount = s.freeCount := by rw [emitN_frame]

/-! ### State.reset -/

/-- The state after reset is what the decode reset makes of it: slot 53 is the hash of the initial pixel. -/
theorem reset_eq_decodeReset : State.reset = decodeReset State.reset := rfl

end Sys2Proof.Machine
end

