-- ==== Sys2Proof/Laws/Decode.lean ====
section
/-! SUPPORT. What the decoder's parts can answer: the classification, the bytes of a number, and the shape of a decoded
instruction. -/

namespace Sys2Proof

@[simp] theorem beBytes_length (n v : Nat) : (beBytes n v).length = n := by
  induction n with
  | zero => rfl
  | succ n ih => simp [beBytes, ih]

@[simp] theorem leBytes_length (n v : Nat) : (leBytes n v).length = n := by
  induction n generalizing v with
  | zero => rfl
  | succ n ih => simp [leBytes, ih]

/-- Every opcode byte is one of the six opcodes (30_encoding.md R81). -/
theorem classify_total (b : Byte) : ∃ k, classify b = .ok k := by
  have h : ∀ b : Byte, (classify b).toOption.isSome = true := by decide
  have := h b
  cases hb : classify b with
  | ok k => exact ⟨k, rfl⟩
  | error e => simp [hb, Except.toOption] at this

/-- A byte classified as RUN holds at most 61 (30_encoding.md R84). -/
theorem classify_run (b : Byte) (h : classify b = .ok .run) : (b.extractLsb' 0 6).toNat ≤ 61 := by
  revert b
  decide

/-- A DIFF term of any layout is a one-byte opcode. -/
theorem diffOfFields_shape (lay : DiffLayout) (a b c : BitVec 2) :
    (diffOfFields lay a b c).stage = .opcode ∧ (diffOfFields lay a b c).length = 1 ∧
      (diffOfFields lay a b c).wellFormed = true := by
  cases lay <;> exact ⟨rfl, rfl, rfl⟩

/-- A decoded opcode: it belongs to `S_OPCODE`, takes as many bytes as it is long, and is well formed. -/
theorem decodeOpcode_shape (lay : DiffLayout) (b : Byte) (bs rest : List Byte) (i : Instr)
    (h : decodeOpcode lay b bs = .ok (i, rest)) :
    i.stage = .opcode ∧ bs.length + 1 = i.length + rest.length ∧ i.wellFormed = true := by
  unfold decodeOpcode at h
  split at h
  · simp at h
  · split at h <;> simp_all [Prod.ext_iff]
    obtain ⟨rfl, rfl⟩ := h
    simp [Instr.stage, Instr.length, Instr.wellFormed]; omega
  · split at h <;> simp_all [Prod.ext_iff]
    obtain ⟨rfl, rfl⟩ := h
    simp [Instr.stage, Instr.length, Instr.wellFormed]; omega
  · simp only [Except.ok.injEq, Prod.mk.injEq] at h
    obtain ⟨rfl, rfl⟩ := h
    simp [Instr.stage, Instr.length, Instr.wellFormed]; omega
  · simp only [Except.ok.injEq, Prod.mk.injEq] at h
    obtain ⟨rfl, rfl⟩ := h
    obtain ⟨h1, h2, h3⟩ := diffOfFields_shape lay (b.extractLsb' 4 2) (b.extractLsb' 2 2) (b.extractLsb' 0 2)
    exact ⟨h1, by omega, h3⟩
  · split at h <;> simp_all [Prod.ext_iff]
    obtain ⟨rfl, rfl⟩ := h
    simp [Instr.stage, Instr.length, Instr.wellFormed]; omega
  · rename_i hk
    simp only [Except.ok.injEq, Prod.mk.injEq] at h
    obtain ⟨rfl, rfl⟩ := h
    refine ⟨rfl, by simp [Instr.length]; omega, ?_⟩
    simpa [Instr.wellFormed] using classify_run b hk

/-- A decoded instruction belongs to its stage, takes as many bytes as it is long, and is well formed. -/
theorem decodeWith_shape (lay : DiffLayout) (st : Stage) (bs rest : List Byte) (i : Instr)
    (h : decodeWith lay st bs = .ok (i, rest)) :
    i.stage = st ∧ bs.length = i.length + rest.length ∧ i.wellFormed = true := by
  unfold decodeWith at h
  split at h <;> first
    | (simp only [reduceCtorEq] at h)
    | (split at h <;> first
        | (simp only [reduceCtorEq] at h)
        | (have := decodeOpcode_shape lay _ _ _ _ h
           simpa using this)
        | (simp only [Except.ok.injEq, Prod.mk.injEq] at h
           obtain ⟨rfl, rfl⟩ := h
           simp [Instr.stage, Instr.length, Instr.wellFormed]
           try omega))

/-- An opcode decodes, or its payload is short: there is no invalid opcode (30_encoding.md R81). -/
theorem decodeOpcode_cases (lay : DiffLayout) (b : Byte) (bs : List Byte) :
    (∃ x, decodeOpcode lay b bs = .ok x) ∨ decodeOpcode lay b bs = .error .shortRead := by
  obtain ⟨k, hk⟩ := classify_total b
  unfold decodeOpcode
  rw [hk]
  cases k with
  | rgb => rcases bs with _ | ⟨_, _ | ⟨_, _ | ⟨_, _⟩⟩⟩ <;> simp
  | rgba => rcases bs with _ | ⟨_, _ | ⟨_, _ | ⟨_, _ | ⟨_, _⟩⟩⟩⟩ <;> simp
  | index => simp
  | diff => simp
  | luma => rcases bs with _ | ⟨_, _⟩ <;> simp
  | run => simp

/-- What the decoder can answer: an instruction; a short read; or, in a stage without a step, nothing. -/
theorem decodeWith_cases (lay : DiffLayout) (st : Stage) (bs : List Byte) :
    (∃ x, decodeWith lay st bs = .ok x) ∨ decodeWith lay st bs = .error .shortRead ∨
    (decodeWith lay st bs = .error .noInstruction ∧ (st = .idle ∨ st = .done ∨ st = .failed)) := by
  cases st with
  | idle => simp [decodeWith]
  | done => simp [decodeWith]
  | failed => simp [decodeWith]
  | opcode =>
    cases bs with
    | nil => simp [decodeWith]
    | cons b bs => rcases decodeOpcode_cases lay b bs with h | h <;> simp [decodeWith, h]
  | _ => simp only [decodeWith]; split <;> simp

/-- The decoder never answers the invalid opcode (30_encoding.md R81). -/
theorem decode_ne_invalidOpcode (st : Stage) (bs : List Byte) : decode st bs ≠ .error .invalidOpcode := by
  rcases decodeWith_cases diffLayout st bs with ⟨x, hx⟩ | hx | ⟨hx, _⟩ <;> simp [decode, hx]

end Sys2Proof
end

