-- ==== Sys2Proof/Laws/Memory.lean ====
section
/-! SUPPORT. The laws of the two address spaces: a byte written is read back, every other address is left alone, and every
operation keeps the canonical form. -/

namespace Sys2Proof.Machine

@[simp] theorem Memory.read_nil (a : Nat) : Memory.read [] a = none := rfl

/-- A read after a write, at the same address and at every other. -/
theorem Memory.read_write (m : Memory) (a : Nat) (b : Byte) (x : Nat) :
    (Memory.write m a b).read x = if x = a then some b else m.read x := by
  induction m with
  | nil => simp [Memory.write, Memory.read, eq_comm]
  | cons c rest ih =>
    simp only [Memory.write]
    split_ifs with h1 h2 h3 h3 <;> simp [Memory.read, ih] <;> grind

@[simp] theorem Memory.read_write_same (m : Memory) (a : Nat) (b : Byte) : (Memory.write m a b).read a = some b := by
  simp [Memory.read_write]

theorem Memory.read_write_other (m : Memory) (a : Nat) (b : Byte) (x : Nat) (h : x ≠ a) :
    (Memory.write m a b).read x = m.read x := by
  simp [Memory.read_write, h]

/-- What lies below every address of `m` lies below every address after a write above it. -/
theorem Memory.write_lower (m : Memory) (a : Nat) (b : Byte) (lo : Nat) (ha : lo < a) (h : ∀ c ∈ m, lo < c.1) :
    ∀ c ∈ Memory.write m a b, lo < c.1 := by
  induction m with
  | nil => simpa [Memory.write] using ha
  | cons d rest ih =>
    have hd : lo < d.1 := h d (by simp)
    have hr : ∀ c ∈ rest, lo < c.1 := fun c hc => h c (by simp [hc])
    simp only [Memory.write]
    split_ifs
    · simpa using ⟨ha, hd, fun a b hc => hr _ hc⟩
    · simpa using ⟨ha, fun a b hc => hr _ hc⟩
    · simpa using ⟨hd, fun a b hc => ih hr _ hc⟩

/-- A write keeps the canonical form. -/
theorem Memory.write_wf (m : Memory) (a : Nat) (b : Byte) (h : Memory.wf m) : Memory.wf (Memory.write m a b) := by
  induction m with
  | nil => simp [Memory.write, Memory.wf]
  | cons d rest ih =>
    obtain ⟨hd, hr⟩ := List.pairwise_cons.1 h
    simp only [Memory.write]
    split_ifs with h1 h2
    · refine List.pairwise_cons.2 ⟨?_, h⟩
      intro c hc
      rcases List.mem_cons.1 hc with rfl | hc
      · exact h1
      · exact h1.trans (hd c hc)
    · exact List.pairwise_cons.2 ⟨fun c hc => by simpa [h2] using hd c hc, hr⟩
    · refine List.pairwise_cons.2 ⟨?_, ih hr⟩
      exact Memory.write_lower rest a b d.1 (by omega) hd

/-- A block write keeps the canonical form. -/
theorem Memory.writeBytes_wf (m : Memory) (a : Nat) (bs : List Byte) (h : Memory.wf m) :
    Memory.wf (Memory.writeBytes m a bs) := by
  induction bs generalizing m a with
  | nil => exact h
  | cons b bs ih => exact ih _ _ (Memory.write_wf m a b h)

/-- A read after a block write: the block's byte inside it, the old byte outside it. -/
theorem Memory.read_writeBytes (m : Memory) (a : Nat) (bs : List Byte) (x : Nat) :
    (Memory.writeBytes m a bs).read x = if a ≤ x ∧ x < a + bs.length then bs[x - a]? else m.read x := by
  induction bs generalizing m a with
  | nil => simp [Memory.writeBytes]
  | cons b bs ih =>
    rw [Memory.writeBytes, ih, Memory.read_write, List.length_cons]
    rcases Nat.lt_trichotomy x a with hx | hx | hx
    · rw [if_neg (by omega), if_neg (by omega), if_neg (by omega)]
    · subst hx
      rw [if_neg (by omega), if_pos rfl, if_pos (by omega)]
      simp
    · obtain ⟨k, rfl⟩ : ∃ k, x = a + 1 + k := ⟨x - a - 1, by omega⟩
      by_cases hk : k < bs.length
      · rw [if_pos (by omega), if_pos (by omega), show a + 1 + k - (a + 1) = k by omega,
          show a + 1 + k - a = k + 1 by omega, List.getElem?_cons_succ]
      · rw [if_neg (by omega), if_neg (by omega), if_neg (by omega)]

/-- Bytes read one after another are as many as were asked for. -/
theorem Memory.readBytes_length (m : Memory) (a n : Nat) (bs : List Byte) (h : m.readBytes a n = some bs) :
    bs.length = n := by
  induction n generalizing a bs with
  | zero => simp [Memory.readBytes] at h; simp [← h]
  | succ n ih =>
    simp only [Memory.readBytes] at h
    split at h
    · rename_i b bs' _ h2
      simp only [Option.some.injEq] at h
      simp [← h, ih _ _ h2]
    · simp at h

/-- A block read is what the single reads are. -/
theorem Memory.readBytes_eq_some (m : Memory) (a : Nat) (bs : List Byte) :
    m.readBytes a bs.length = some bs ↔ ∀ k, k < bs.length → m.read (a + k) = bs[k]? := by
  induction bs generalizing a with
  | nil => simp [Memory.readBytes]
  | cons b bs ih =>
    simp only [List.length_cons, Memory.readBytes]
    constructor
    · intro h
      split at h
      · rename_i b' bs' h1 h2
        simp only [Option.some.injEq, List.cons.injEq] at h
        obtain ⟨rfl, rfl⟩ := h
        have := (ih (a + 1)).1 h2
        rintro (_ | k) hk
        · simpa using h1
        · have := this k (by omega)
          rw [show a + 1 + k = a + (k + 1) by omega] at this
          simpa using this
      · simp at h
    · intro h
      have h0 := h 0 (by omega)
      have h1 := (ih (a + 1)).2 (fun k hk => by
        have := h (k + 1) (by omega)
        rw [show a + (k + 1) = a + 1 + k by omega] at this
        simpa using this)
      simp only [Nat.add_zero, List.getElem?_cons_zero] at h0
      rw [h0, h1]

/-- Two block reads one after the other are one block read. -/
theorem Memory.readBytes_append (m : Memory) (a k n : Nat) (xs ys : List Byte)
    (hx : m.readBytes a k = some xs) (hy : m.readBytes (a + k) n = some ys) : m.readBytes a (k + n) = some (xs ++ ys) := by
  obtain rfl := Memory.readBytes_length m a k xs hx
  obtain rfl := Memory.readBytes_length m _ n ys hy
  have hx' := (Memory.readBytes_eq_some m a xs).1 hx
  have hy' := (Memory.readBytes_eq_some m (a + xs.length) ys).1 hy
  have := Memory.readBytes_eq_some m a (xs ++ ys)
  rw [List.length_append] at this
  refine this.2 fun k hk => ?_
  by_cases h : k < xs.length
  · rw [hx' k h, List.getElem?_append_left h]
  · have := hy' (k - xs.length) (by omega)
    rw [show a + xs.length + (k - xs.length) = a + k by omega] at this
    rw [this, List.getElem?_append_right (by omega)]

/-- The input space reads the byte placed at an offset. -/
theorem Memory.inByte_of_read (m : Memory) (a : Nat) (b : Byte) (h : m.read a = some b) : m.inByte a = b := by
  simp [Memory.inByte, h]

/-- As many bytes are read as were asked for. -/
@[simp] theorem Memory.inBytes_length (m : Memory) (a n : Nat) : (m.inBytes a n).length = n := by
  induction n generalizing a with
  | zero => rfl
  | succ n ih => simp [Memory.inBytes, ih]

/-- A block read of the input space is what the single reads are. -/
theorem Memory.inBytes_getElem? (m : Memory) (a n k : Nat) (h : k < n) : (m.inBytes a n)[k]? = some (m.inByte (a + k)) := by
  induction n generalizing a k with
  | zero => omega
  | succ n ih =>
    cases k with
    | zero => rfl
    | succ k => rw [Memory.inBytes, List.getElem?_cons_succ, ih (a + 1) k (by omega), show a + 1 + k = a + (k + 1) by omega]

/-- A block read of the input space is two block reads, one after the other. -/
theorem Memory.inBytes_append (m : Memory) (a k n : Nat) : m.inBytes a (k + n) = m.inBytes a k ++ m.inBytes (a + k) n := by
  induction k generalizing a with
  | zero => simp [Memory.inBytes]
  | succ k ih => rw [show k + 1 + n = (k + n) + 1 by omega, Memory.inBytes, ih, show a + 1 + k = a + (k + 1) by omega]; rfl

/-- Block reads of two input spaces agree where the single reads do. -/
theorem Memory.inBytes_congr (m m' : Memory) (a n : Nat) (h : ∀ x, a ≤ x → x < a + n → m.inByte x = m'.inByte x) :
    m.inBytes a n = m'.inBytes a n := by
  induction n generalizing a with
  | zero => rfl
  | succ n ih => rw [Memory.inBytes, Memory.inBytes, h a (by omega) (by omega), ih (a + 1) fun x h1 h2 => h x (by omega) (by omega)]

/-- A stream just placed is read back. -/
theorem Memory.inBytes_writeBytes (m : Memory) (a : Nat) (bs : List Byte) : (m.writeBytes a bs).inBytes a bs.length = bs := by
  apply List.ext_getElem?
  intro k
  by_cases hk : k < bs.length
  · rw [Memory.inBytes_getElem? _ a _ k hk, List.getElem?_eq_getElem hk]
    congr 1
    apply Memory.inByte_of_read
    rw [Memory.read_writeBytes, if_pos (by omega), show a + k - a = k by omega, List.getElem?_eq_getElem hk]
  · rw [List.getElem?_eq_none (by simpa using hk), List.getElem?_eq_none (by omega)]

@[simp] theorem State.inBytes_length (s : State) (a n : Nat) : (s.inBytes a n).length = n := Memory.inBytes_length _ _ _

theorem State.inBytes_append (s : State) (a k n : Nat) : s.inBytes a (k + n) = s.inBytes a k ++ s.inBytes (a + k) n :=
  Memory.inBytes_append _ _ _ _

/-- The memory of a block written into an empty space is canonical. -/
theorem State.reset_memories_wf : Memory.wf State.reset.input ∧ Memory.wf State.reset.out := by
  constructor <;> exact List.Pairwise.nil

end Sys2Proof.Machine
end

