-- ==== Sys2Proof/Laws/HostPort.lean ====
section
/-! SUPPORT. What the host's moves can do, said once: a write of `CTRL`, and what the test of a stream's size looks at. -/

namespace Sys2Proof.Machine

/-- A write of `CTRL` that is not refused does nothing, or makes a `START` wait on a stream whose image fits. -/
theorem writeCtrl_cases (p : Config.Params) (v : Nat) (s t : State) (h : writeCtrl p v s = .next t) :
    t = s ∨ (s.busy = false ∧ fits p s.placedHeader = true ∧ t = { s with ctrlStart := true }) := by
  unfold writeCtrl at h
  split_ifs at h with h1 h2
  · exact .inr ⟨h1.2, h2, by simpa using h.symm⟩
  · exact .inl (by simpa using h.symm)

/-- A `START` in a stage that waits for one, on a stream whose image fits, is taken. -/
theorem writeCtrl_start (p : Config.Params) (s : State) (hb : s.busy = false) (hf : fits p s.placedHeader = true) :
    writeCtrl p 1 s = .next { s with ctrlStart := true } := by
  simp [writeCtrl, hb, hf]

/-- Only the fourteen bytes of the header decide what image a stream asks for. -/
theorem headerTarget_take (stream : List Byte) : headerTarget (stream.take 14) = headerTarget stream := by
  simp [headerTarget, List.take_take, List.drop_take]

/-- Only the fourteen bytes of the header decide whether an instance has room for the image. -/
theorem fits_take (p : Config.Params) (stream : List Byte) : fits p (stream.take 14) = fits p stream := by
  simp only [fits, headerTarget_take]

/-- The placed header is the header of the stream that lies in the input space. -/
theorem placedHeader_of_stream (s : State) (stream : List Byte) (hl : s.inLen = stream.length)
    (h : s.inBytes 0 stream.length = stream) : s.placedHeader = stream.take 14 := by
  unfold State.placedHeader
  rw [hl]
  have he : stream.length = min 14 stream.length + (stream.length - min 14 stream.length) := by omega
  rw [he, State.inBytes_append] at h
  have ht := congrArg (List.take (min 14 stream.length)) h
  rw [List.take_append_of_le_length (by simp), List.take_of_length_le (by simp)] at ht
  rw [ht]
  exact List.take_eq_take_iff.2 (by omega)

/-- After a launch has placed a stream, the placed header is the stream's. -/
theorem placedHeader_placed (s : State) (stream : List Byte) :
    ({ s with input := s.input.writeBytes 0 stream, inLen := stream.length } : State).placedHeader = stream.take 14 :=
  placedHeader_of_stream _ stream rfl (Memory.inBytes_writeBytes s.input 0 stream)

end Sys2Proof.Machine
end

