-- ==== Sys2Proof/Laws/Ops.lean ====
section
/-! SUPPORT. For each shared operation, once, everything it can do: an append, the emission of a pixel or a run, a commit, a
fetch, a failure. -/

namespace Sys2Proof.Machine

/-- An append: the new bytes stand at the old end, everything else reads as before. -/
theorem append_read (s : State) (bs : List Byte) (a : Nat) :
    (s.append bs).out.read a =
      if s.outLen ≤ a ∧ a < s.outLen + bs.length then bs[a - s.outLen]? else s.out.read a := by
  simp [Memory.read_writeBytes]

/-- An append keeps the output canonical. -/
theorem append_wf (s : State) (bs : List Byte) (h : Memory.wf s.out) : Memory.wf (s.append bs).out :=
  Memory.writeBytes_wf _ _ _ h

/-- Two appends are one append of both. -/
theorem append_append (s : State) (xs ys : List Byte) : (s.append xs).append ys = s.append (xs ++ ys) := by
  have hw : ∀ (m : Memory) (a : Nat) (xs ys : List Byte),
      (m.writeBytes a xs).writeBytes (a + xs.length) ys = m.writeBytes a (xs ++ ys) := by
    intro m a xs
    induction xs generalizing m a with
    | nil => intro ys; rfl
    | cons x xs ih =>
      intro ys
      have := ih (m.write a x) (a + 1) ys
      rw [show a + 1 + xs.length = a + (xs.length + 1) by omega] at this
      simpa [Memory.writeBytes] using this
  simp only [State.append, hw, List.length_append, Nat.add_assoc]

/-- One pixel is three bytes, or four where the channel count is 4. -/
theorem pixelBytes_length (c : Byte) (p : Pixel) : (pixelBytes c p).length = if c = 4#8 then 4 else 3 := by
  unfold pixelBytes
  split_ifs <;> rfl

/-- With a legal channel count a pixel is as many bytes as the count says. -/
theorem pixelBytes_length_legal (c : Byte) (p : Pixel) (h : c = 3#8 ∨ c = 4#8) : (pixelBytes c p).length = c.toNat := by
  rcases h with rfl | rfl <;> rfl

/-- A run appends its pixel's bytes, `n` times over. -/
theorem emitN_eq_append (p : Pixel) (n : Nat) (s : State) :
    emitN p n s = s.append (List.replicate n (pixelBytes s.channels p)).flatten := by
  induction n generalizing s with
  | zero => rfl
  | succ n ih =>
    rw [emitN, ih, emit, append_append, List.replicate_succ, List.flatten_cons]
    rfl

/-- A run of `n` pixels is `n` pixels longer. -/
theorem emitN_outLen (p : Pixel) (n : Nat) (s : State) :
    (emitN p n s).outLen = s.outLen + n * (pixelBytes s.channels p).length := by
  simp [emitN_eq_append, List.length_flatten]

/-- A commit is the memory of the pixel and its emission. -/
theorem commit_eq_append (p : Pixel) (s : State) : commit p s = (s.remember p).append (pixelBytes s.channels p) := rfl

/-- A commit puts the pixel into the slot of its hash and into no other. -/
theorem commit_slot (p : Pixel) (s : State) (i : Fin 64) :
    (commit p s).hist.get i = if i = pixelHash p then p else s.hist.get i := by
  obtain ⟨i, hi⟩ := i
  simp only [commit_hist, Vector.get_eq_getElem, Vector.getElem_set, Fin.ext_iff]
  grind

/-- The decode reset's history: the seed in its slot, zero elsewhere. -/
theorem decodeReset_slot (s : State) (i : Fin 64) :
    (decodeReset s).hist.get i = if i = pixelHash Pixel.initial then Pixel.initial else Pixel.zero := by
  obtain ⟨i, hi⟩ := i
  simp only [decodeReset, Vector.get_eq_getElem, Vector.getElem_set, Vector.getElem_replicate, Fin.ext_iff]
  grind

/-- What a fetch can give. -/
theorem fetch_cases (s : State) (a n : Nat) :
    (fetch s a n = none ∧ s.inLen < a + n) ∨ (fetch s a n = some (s.inBytes a n) ∧ a + n ≤ s.inLen) := by
  unfold fetch
  by_cases h : s.inLen < a + n
  · exact .inl ⟨if_pos h, h⟩
  · exact .inr ⟨if_neg h, by omega⟩

/-- No instruction stops: each answers a next state, from every state. -/
theorem exec_next (i : Instr) (s : State) : ∃ t, exec i s = .next t := by
  cases i <;>
    simp only [exec, execMagic, execWidth, execHeight, execChannels, execColorspace, execRgb, execRgba, execIndex, execDiff,
      execLuma, execRun, execEndMark] <;>
    first
    | exact ⟨_, rfl⟩
    | (split_ifs <;> exact ⟨_, rfl⟩)

end Sys2Proof.Machine
end

