-- ==== Sys2Proof/Laws/PerInstr.lean ====
section
/-! SUPPORT. A statement about every instruction as syntax, one lemma per constructor: its encoding is as long as the format
table says, and its first byte is all that decides how much is fetched (30_encoding.md R71, R82). -/

namespace Sys2Proof.Laws.FetchLength

/-- The bytes of a well-formed instruction are as many as its format has, and the two fetches of its stage (the first, then
the payload) take exactly so many. -/
def Statement (i : Instr) : Prop :=
  i.wellFormed = true →
    (encode i).length = i.length ∧
    firstFetch i.stage + payloadLength i.stage ((encode i).take (firstFetch i.stage)) = i.length

theorem magic (m : BitVec 32) : Statement (.magic m) := by
  simp [Statement, encode, encodeWith, Instr.stage, Instr.length, firstFetch, payloadLength]

theorem width (w : BitVec 32) : Statement (.width w) := by
  simp [Statement, encode, encodeWith, Instr.stage, Instr.length, firstFetch, payloadLength]

theorem height (h : BitVec 32) : Statement (.height h) := by
  simp [Statement, encode, encodeWith, Instr.stage, Instr.length, firstFetch, payloadLength]

theorem channels (c : Byte) : Statement (.channels c) := by
  simp [Statement, encode, encodeWith, Instr.stage, Instr.length, firstFetch, payloadLength]

theorem colorspace (v : Byte) : Statement (.colorspace v) := by
  simp [Statement, encode, encodeWith, Instr.stage, Instr.length, firstFetch, payloadLength]

theorem rgb (r g b : Byte) : Statement (.rgb r g b) := fun _ => ⟨rfl, rfl⟩

theorem rgba (r g b a : Byte) : Statement (.rgba r g b a) := fun _ => ⟨rfl, rfl⟩

theorem index (i : BitVec 6) : Statement (.index i) := by
  have h : ∀ i : BitVec 6, payloadLength .opcode [0b00#2 ++ i] = 0 := by decide
  exact fun _ => ⟨rfl, by simp [encode, encodeWith, Instr.stage, Instr.length, firstFetch, h]⟩

theorem diff (fr fg fb : BitVec 2) : Statement (.diff fr fg fb) := by
  have h : ∀ f : BitVec 6, payloadLength .opcode [0b01#2 ++ f] = 0 := by decide
  exact fun _ => ⟨rfl, by simp [encode, encodeWith, Instr.stage, Instr.length, firstFetch, h]⟩

theorem luma (fdg : BitVec 6) (frg fbg : BitVec 4) : Statement (.luma fdg frg fbg) := by
  have h : ∀ f : BitVec 6, payloadLength .opcode [0b10#2 ++ f] = 1 := by decide
  exact fun _ => ⟨rfl, by simp [encode, encodeWith, Instr.stage, Instr.length, firstFetch, h]⟩

theorem run (n : BitVec 6) : Statement (.run n) := by
  have h : ∀ n : BitVec 6, n.toNat ≤ 61 → payloadLength .opcode [0b11#2 ++ n] = 0 := by decide
  intro hw
  have := h n (by simpa [Instr.wellFormed] using hw)
  exact ⟨rfl, by simp [encode, encodeWith, Instr.stage, Instr.length, firstFetch, this]⟩

theorem endMark (e : BitVec 64) : Statement (.endMark e) := by
  simp [Statement, encode, encodeWith, Instr.stage, Instr.length, firstFetch, payloadLength]

end Sys2Proof.Laws.FetchLength
end

