-- ==== Sys2Proof/Laws/Step.lean ====
section
/-! SUPPORT. What a step can do, said once: what a fetch can end in, and the cases of a step that answers a next state. Every
invariant of the machine is a case analysis over these. -/

namespace Sys2Proof.Machine

/-- All that fetching and decoding can end in: a short read; the instruction that some bytes at the cursor, within the stream,
decode to (20_memory.md R53); or, in a stage that reads nothing, no step. The invalid opcode is dead (30_encoding.md R81). -/
theorem fetchInstr_cases (s : State) :
    fetchInstr s = .raise .unexpectedEof ∨
    (∃ n i rest, fetchInstr s = .run i ∧ s.cur + n ≤ s.inLen ∧ decode s.stage (s.inBytes s.cur n) = .ok (i, rest)) ∨
    (fetchInstr s = .stuck .noStepEnabled ∧ (s.stage = .idle ∨ s.stage = .done ∨ s.stage = .failed)) := by
  unfold fetchInstr
  rcases fetch_cases s s.cur (firstFetch s.stage) with ⟨h1, _⟩ | ⟨h1, _⟩
  · exact .inl (by rw [h1])
  · rw [h1]
    dsimp only
    rw [State.inBytes_length]
    rcases fetch_cases s (s.cur + firstFetch s.stage) (payloadLength s.stage (s.inBytes s.cur (firstFetch s.stage))) with
      ⟨h2, _⟩ | ⟨h2, hn⟩
    · exact .inl (by rw [h2])
    · rw [h2]
      dsimp only
      rw [← State.inBytes_append]
      rcases decodeWith_cases diffLayout s.stage (s.inBytes s.cur (firstFetch s.stage +
        payloadLength s.stage (s.inBytes s.cur (firstFetch s.stage)))) with ⟨⟨i, rest⟩, hd⟩ | hd | ⟨hd, hq⟩
      · exact .inr (.inl ⟨_, i, rest, by simp only [decode, hd], by omega, hd⟩)
      · exact .inl (by simp only [decode, hd])
      · exact .inr (.inr ⟨by simp only [decode, hd], hq⟩)

/-- A failure that a fetch raises is a short read. -/
theorem fetchInstr_raise (s : State) (f : Failure) (h : fetchInstr s = .raise f) : f = .unexpectedEof := by
  rcases fetchInstr_cases s with h' | ⟨_, _, _, h', _⟩ | ⟨h', _⟩ <;> rw [h'] at h <;> simp_all

/-- A fetch never answers the decode reset or the end of the loop. -/
theorem fetchInstr_not_control (s : State) : fetchInstr s ≠ .reset ∧ fetchInstr s ≠ .loopEnd := by
  rcases fetchInstr_cases s with h | ⟨_, _, _, h, _⟩ | ⟨h, _⟩ <;> simp [h]

/-- A fetched instruction belongs to the stage, is well formed, and lies within the stream. -/
theorem fetchInstr_run (s : State) (i : Instr) (h : fetchInstr s = .run i) :
    i.stage = s.stage ∧ i.wellFormed = true ∧ s.cur + i.length ≤ s.inLen := by
  rcases fetchInstr_cases s with h' | ⟨n, j, rest, h', hn, hd⟩ | ⟨h', _⟩ <;> rw [h'] at h <;> simp only [reduceCtorEq, Action.run.injEq] at h
  subst h
  obtain ⟨hs, hl, hw⟩ := decodeWith_shape _ _ _ _ _ hd
  rw [State.inBytes_length] at hl
  exact ⟨hs, hw, by omega⟩

/-- The cases of `nextAction`: the stages that wait for `START`, the end of the loop, and a fetch. -/
theorem nextAction_cases (s : State) :
    ((s.stage = .idle ∨ s.stage = .done ∨ s.stage = .failed) ∧ nextAction s = awaitStart s) ∨
    (s.stage = .opcode ∧ s.target ≤ s.outLen ∧ nextAction s = .loopEnd) ∨
    (s.busy = true ∧ (s.stage = .opcode → s.outLen < s.target) ∧ nextAction s = fetchInstr s) := by
  unfold nextAction opcodeAction State.busy
  cases hs : s.stage <;> simp [stageCode]
  by_cases h : s.target ≤ s.outLen <;> simp [h]
  omega

/-- Everything a step that answers a next state can be. -/
theorem step_cases (s t : State) (h : step s = .next t) :
    ((s.stage = .idle ∨ s.stage = .done ∨ s.stage = .failed) ∧ s.ctrlStart = true ∧ t = decodeReset s) ∨
    (s.stage = .opcode ∧ s.target ≤ s.outLen ∧ t = endLoop s.dropStart) ∨
    (s.busy = true ∧ (s.stage = .opcode → s.outLen < s.target) ∧ t = raise .unexpectedEof s.dropStart) ∨
    (∃ i, i.stage = s.stage ∧ i.wellFormed = true ∧ s.cur + i.length ≤ s.inLen ∧ fetchInstr s = .run i ∧
      (s.stage = .opcode → s.outLen < s.target) ∧ exec i s.dropStart = .next t) := by
  unfold step at h
  rcases nextAction_cases s with ⟨hq, ha⟩ | ⟨hs, ht, ha⟩ | ⟨hb, ho, ha⟩ <;> rw [ha] at h
  · unfold awaitStart at h
    cases hc : s.ctrlStart <;> simp [hc] at h
    exact .inl ⟨hq, rfl, h.symm⟩
  · exact .inr (.inl ⟨hs, ht, by simpa using h.symm⟩)
  · cases hf : fetchInstr s with
    | reset => exact absurd hf (fetchInstr_not_control s).1
    | loopEnd => exact absurd hf (fetchInstr_not_control s).2
    | run i =>
      obtain ⟨h1, h2, h3⟩ := fetchInstr_run s i hf
      exact .inr (.inr (.inr ⟨i, h1, h2, h3, rfl, ho, by simpa [hf] using h⟩))
    | raise f =>
      obtain rfl := fetchInstr_raise s f hf
      exact .inr (.inr (.inl ⟨hb, ho, by simpa [hf] using h.symm⟩))
    | stuck r => simp [hf] at h

/-- The effect of every opcode, in one shape: perhaps a remembered pixel, then an append. -/
theorem exec_opcode_shape (i : Instr) (s t : State) (hi : i.stage = .opcode) (h : exec i s = .next t) :
    (∃ p, t = ((s.advance i.length).remember p).append (pixelBytes s.channels p)) ∨
    (∃ n, i = .run n ∧
      t = (s.advance 1).append (List.replicate (runLength n) (pixelBytes s.channels s.prev)).flatten) := by
  cases i <;> simp only [Instr.stage, reduceCtorEq] at hi <;> simp only [exec, execRgb, execRgba, execIndex, execDiff, execLuma,
    execRun, Host.Outcome.next.injEq] at h <;> subst h
  all_goals first
    | exact .inl ⟨_, rfl⟩
    | exact .inr ⟨_, rfl, by rw [emitN_eq_append]; rfl⟩

end Sys2Proof.Machine
end

