-- ==== Sys2Proof/Tests/Slice0.lean ====
section
/-! SUPPORT. Tests of one step or one operation each, their expected values from spec/95_test_vectors.md (the vector is named
in each docstring) or counted by hand from the encoding rules; and, for the statements, witnesses that their hypotheses can be
met. -/

namespace Sys2Proof.Tests

open Sys2Proof.Machine Sys2Proof.Safety

/-! ### Helpers -/

/-- The state a machine goes to, if it goes on. -/
def nextOf (o : Host.Outcome State Fault Refusal) : Option State :=
  match o with
  | .next t => some t
  | .fault _ => none
  | .refused _ => none

/-- What makes the difference between an outcome with a next state and one without. -/
theorem nextOf_some (o : Host.Outcome State Fault Refusal) (h : (nextOf o).isSome = true) : ∃ t, o = .next t := by
  cases o with
  | next t => exact ⟨t, rfl⟩
  | fault r => simp [nextOf] at h
  | refused r => simp [nextOf] at h

/-- The machine after the decode reset, with a stream placed. -/
def onStream (bs : List Byte) : State :=
  { State.reset with input := Memory.writeBytes [] 0 bs, inLen := bs.length }

/-- The machine in a stage, with `bs` at the cursor 14 and nothing before it that it needs. -/
def at14 (st : Stage) (bs : List Byte) : State :=
  { State.reset with stage := st, cur := 14, input := Memory.writeBytes [] 0 (List.replicate 14 0 ++ bs), inLen := 14 + bs.length }

/-- In `S_OPCODE` with a channel count, a previous pixel, and `bs` at the cursor; 64 bytes are owed. -/
def opState (channels : Byte) (prev : Pixel) (bs : List Byte) : State :=
  { at14 .opcode bs with channels := channels, target := 64, prev := prev }

/-- The bytes of the output after an outcome. -/
def outOf (o : Host.Outcome State Fault Refusal) : Option (List Byte) := (nextOf o).bind State.outBytes

/-- The previous pixel after an outcome. -/
def prevOf (o : Host.Outcome State Fault Refusal) : Option Pixel := (nextOf o).map State.prev

/-- The slot `i` after an outcome. -/
def slotAfter (o : Host.Outcome State Fault Refusal) (i : Fin 64) : Option Pixel := (nextOf o).map (fun t => t.hist.get i)

/-- The result after an outcome. -/
def resultOf (o : Host.Outcome State Fault Refusal) : Option Result := (nextOf o).bind State.result

/-- The stage after an outcome. -/
def stageOf (o : Host.Outcome State Fault Refusal) : Option Stage := (nextOf o).map State.stage

/-! ### Well-formedness: the one check, and a term it refuses -/

/-- R84: a stored run of 62 would be the byte of RGB. -/
theorem test_wf_refuses_run_62 : (Instr.run 62).wellFormed = false := by decide

/-- R84: 61 is the longest. -/
theorem test_wf_accepts_run_61 : (Instr.run 61).wellFormed = true := by decide

/-! ### Decoding: words written out from R72 to R77 and vector table 2.4 -/

theorem test_decode_magic : decode .magic [0x71, 0x6F, 0x69, 0x66] = .ok (.magic 0x716F6966, []) := by decide
theorem test_decode_width : decode .width [0x12, 0x34, 0x56, 0x78] = .ok (.width 305419896, []) := by decide
theorem test_decode_height : decode .height [0x00, 0x00, 0x01, 0x00] = .ok (.height 256, []) := by decide
theorem test_decode_channels : decode .channels [0x05, 0x00] = .ok (.channels 5, [0x00]) := by decide
theorem test_decode_colorspace : decode .colorspace [0x01] = .ok (.colorspace 1, []) := by decide
theorem test_decode_rgb : decode .opcode [0b11111110, 0xC8, 0x64, 0x32, 9] = .ok (.rgb 200 100 50, [9]) := by decide
theorem test_decode_rgba : decode .opcode [0b11111111, 1, 2, 3, 77] = .ok (.rgba 1 2 3 77, []) := by decide
theorem test_decode_index : decode .opcode [0b00110101] = .ok (.index 53, []) := by decide
theorem test_decode_diff : decode .opcode [0b01001110] = .ok (.diff 0 3 2, []) := by decide
theorem test_decode_luma : decode .opcode [0b10100101, 0b01011111] = .ok (.luma 37 5 15, []) := by decide
theorem test_decode_run : decode .opcode [0b11111101] = .ok (.run 61, []) := by decide
theorem test_decode_endMark : decode .endMark [0, 0, 0, 0, 0, 0, 0, 1] = .ok (.endMark 1, []) := by decide

/-- R82: a payload may be short, an opcode byte alone is not an RGBA. -/
theorem test_decode_short_payload : decode .opcode [0xFF, 1, 2, 3] = .error .shortRead := by decide

/-- R86: `LUMA 5, -3, 7` assembles to `A5 5F`, `DIFF 1, 0, -2` to `78`, `RUN 62` to `FD` (programs P1, P6). -/
theorem test_assemble :
    assemble (.luma 5 (-3) 7) = some [0xA5, 0x5F] ∧ assemble (.diff 1 0 (-2)) = some [0x78] ∧
    assemble (.run 62) = some [0xFD] ∧ assemble (.run 63) = none ∧
    assemble (.header 2 2 4 0) = some [0x71, 0x6F, 0x69, 0x66, 0, 0, 0, 2, 0, 0, 0, 2, 4, 0] := by decide

/-! ### The header (vectors H1 to H14, B5) -/

/-- H3: a short read wins over a mismatch. -/
theorem test_magic_short : resultOf (step (onStream [0x78, 0x78, 0x78])) = some (.fail .unexpectedEof .magic) := by decide

/-- H4: `qoix` is refused before the width is fetched. -/
theorem test_magic_mismatch : resultOf (step (onStream [0x71, 0x6F, 0x69, 0x78])) = some (.fail .invalidMagic .magic) := by
  decide

/-- B5: big-endian. -/
theorem test_width_big_endian :
    (nextOf (step (at14 .width [0x12, 0x34, 0x56, 0x78]))).map State.width = some 305419896 := by decide

/-- R103: the height goes to its own register, and the next stage is `S_CHANNELS`. -/
theorem test_height : (nextOf (step (at14 .height [0, 0, 0, 2]))).map (fun t => (t.height, t.width, t.stage)) =
    some (2, 0, .channels) := by decide

/-- H10: 5 is refused. -/
theorem test_channels_five : resultOf (step (at14 .channels [5])) = some (.fail .invalidChannelCount .channels) := by decide

/-- R104: 3 is taken. -/
theorem test_channels_three : (nextOf (step (at14 .channels [3]))).map (fun t => (t.channels, t.stage)) =
    some (3, .colorspace) := by decide

/-- H14: 255 is refused. -/
theorem test_colorspace_255 : resultOf (step (at14 .colorspace [0xFF])) = some (.fail .invalidColorspace .colorspace) := by
  decide

/-- Vector table 2.2: the largest target, exactly. -/
theorem test_target_exact :
    (nextOf (step { at14 .colorspace [1] with width := 4294967295, height := 4294967295, channels := 4 })).map State.target =
      some 73786976260478468100 := by decide

/-! ### The hash (vectors K2, K3, K14, K21) -/

theorem test_hash : pixelHash ⟨0, 0, 0, 255⟩ = 53 ∧ pixelHash ⟨255, 255, 255, 255⟩ = 38 ∧
    pixelHash ⟨11, 20, 28, 40⟩ = 1 ∧ pixelHash ⟨1, 2, 3, 255⟩ = 23 := by decide

/-! ### The opcodes (vectors L, I, D, M, N) -/

/-- L3: alpha 77 is carried, and not emitted with three channels. -/
theorem test_rgb_carries_alpha : prevOf (step (opState 3 ⟨1, 2, 3, 77⟩ [0xFE, 9, 9, 9])) = some ⟨9, 9, 9, 77⟩ ∧
    outOf (step (opState 3 ⟨1, 2, 3, 77⟩ [0xFE, 9, 9, 9])) = some [9, 9, 9] := by decide

/-- L7: a short payload. -/
theorem test_rgb_short : resultOf (step (opState 4 Pixel.initial [0xFE, 1, 2])) = some (.fail .unexpectedEof .opcode) := by
  decide

/-- L4: slot 12, four bytes. -/
theorem test_rgba : slotAfter (step (opState 4 Pixel.initial [0xFF, 0x0A, 0x14, 0x1E, 0x28])) 12 = some ⟨10, 20, 30, 40⟩ ∧
    outOf (step (opState 4 Pixel.initial [0xFF, 0x0A, 0x14, 0x1E, 0x28])) = some [0x0A, 0x14, 0x1E, 0x28] := by decide

/-- I1: the seeded slot. -/
theorem test_index_seeded : prevOf (step (opState 4 ⟨1, 1, 1, 1⟩ [0x35])) = some ⟨0, 0, 0, 255⟩ := by decide

/-- I5: a fresh slot's pixel goes to slot 0, which loses what it held. -/
theorem test_index_fresh : slotAfter (exec (.index 5) { opState 4 Pixel.initial [] with
    hist := resetHistory.set 0 ⟨64, 0, 0, 0⟩ }) 0 = some ⟨0, 0, 0, 0⟩ := by decide

/-- D1: wrap-around below 0. -/
theorem test_diff_wraps_down : prevOf (step (opState 4 ⟨0, 0, 0, 255⟩ [0x40])) = some ⟨254, 254, 254, 255⟩ := by decide

/-- D6: three different fields. -/
theorem test_diff_fields : prevOf (step (opState 4 ⟨10, 20, 30, 40⟩ [0x4E])) = some ⟨8, 21, 30, 40⟩ := by decide

/-- M1: the worked example. -/
theorem test_luma : prevOf (step (opState 4 ⟨11, 20, 28, 40⟩ [0xA5, 0x5F])) = some ⟨13, 25, 40, 40⟩ := by decide

/-- M2: the extremes, wrapping. -/
theorem test_luma_wraps : prevOf (step (opState 4 ⟨0, 0, 0, 0⟩ [0x80, 0x0F])) = some ⟨216, 224, 231, 0⟩ := by decide

/-- N2: two copies, three channels. -/
theorem test_run : outOf (step (opState 3 ⟨200, 100, 50, 255⟩ [0xC1])) = some [0xC8, 0x64, 0x32, 0xC8, 0x64, 0x32] := by decide

/-- P7: the target is passed; all five copies are appended. -/
theorem test_run_overshoots :
    (nextOf (step { opState 4 Pixel.initial [0xC4] with target := 8 })).map State.outLen = some 20 := by decide

/-! ### The end (vectors E1, E6, Z3) and the loop test -/

theorem test_end_mark : (nextOf (step (at14 .endMark [0, 0, 0, 0, 0, 0, 0, 1, 0xAA]))).map (fun t => (t.stage, t.cur)) =
    some (.done, 22) := by decide

/-- E6. -/
theorem test_end_mark_zero :
    resultOf (step (at14 .endMark [0, 0, 0, 0, 0, 0, 0, 0])) = some (.fail .invalidEndMarker .endMark) := by decide

/-- R172: at the target nothing is fetched, whatever the next byte is. -/
theorem test_loop_end : (nextOf (step { opState 4 Pixel.initial [0x0C] with target := 16, outLen := 16 })).map
    (fun t => (t.stage, t.cur)) = some (.endMark, 14) := by decide

/-! ### Reset, the host -/

/-- R33, R164. -/
theorem test_reset : State.reset.hist.get 53 = ⟨0, 0, 0, 255⟩ ∧ State.reset.hist.get 52 = ⟨0, 0, 0, 0⟩ ∧
    State.reset.prev = ⟨0, 0, 0, 255⟩ ∧ State.reset.stage = .magic ∧ State.reset.cur = 0 := by decide

/-- R231, R236: a `START` in `S_FAILED` begins anew. -/
theorem test_start : (nextOf (hostWrite ⟨64, some 0⟩ .ctrl 1 { State.reset with stage := .failed })).map
    (fun t => stageOf (step t)) = some (some .magic) := by decide

/-- A step in `S_DONE` with no `START` waiting is none. -/
theorem test_done_is_terminal : nextOf (step { State.reset with stage := .done }) = none := by decide

/-- R31: `STATUS` in `S_FAILED` is `FAIL` and the stage 9; `ERR` is the code and the stage of a bad magic. -/
theorem test_status_words : statusWord (raise .invalidMagic State.reset) = 4 + 16 * 9 ∧
    errWord (raise .invalidMagic State.reset) = 1 + 16 * 1 := by decide

/-- 20_memory.md R60: in a 2 x 1 image of 3 channels the pixel at column 1 begins at byte 3. -/
theorem test_image_layout : Image.offset ⟨2, 1, 3, 0, [1, 2, 3, 4, 5, 6]⟩ 0 1 = 3 ∧
    Image.pixelBytes ⟨2, 1, 3, 0, [1, 2, 3, 4, 5, 6]⟩ 1 = [4, 5, 6] := by decide

/-! ### Words of the opcode table, fetched as the first instruction after reset -/

theorem test_table_words :
    decodeTableWord 32 0x716F6966 = some (.magic 0x716F6966) ∧ decodeTableWord 8 0xFE = some (.rgb 0 0 0) ∧
    decodeTableWord 8 0xFF = some (.rgba 0 0 0 0) ∧ decodeTableWord 8 0x00 = some (.index 0) ∧
    decodeTableWord 8 0x40 = some (.diff 0 0 0) ∧ decodeTableWord 8 0x80 = some (.luma 0 0 0) ∧
    decodeTableWord 8 0xC0 = some (.run 0) ∧ decodeTableWord 64 1 = some (.endMark 1) ∧
    decodeTableWord 32 0 = some (.width 0) := by decide

theorem test_fetch_word_rgb : nextAction (State.reset.withFetchWord 8 0xFE) = .run (.rgb 0 0 0) := by decide
theorem test_fetch_word_magic : stageOf (step (State.reset.withFetchWord 32 0x716F6966)) = some .width := by decide
theorem test_fetch_word_end : stageOf (step (State.reset.withFetchWord 64 1)) = some .done := by decide

/-! ### Witnesses: the hypotheses of the statements can be met -/

/-- The states of the witnesses: an opcode ready to run, with its byte the last of the stream. -/
def ready (bs : List Byte) : State := opState 4 Pixel.initial bs

/-- A machine at `S_DONE` after a zero-pixel image (program P3). -/
def doneState : State := { State.reset with
  stage := .done, cur := 22, input := Memory.writeBytes [] 0 (List.replicate 22 0), inLen := 22, height := 7, channels := 4 }

theorem witness_DecodeOfEncode : (Instr.run 61).wellFormed = true := by decide

theorem witness_EncodeOfDecode : decodeWith .bgr .opcode [0x4E, 9] = .ok (.diff 2 3 0, [9]) := by decide

/-- The boundaries of the six ranges. -/
theorem witness_OpcodeByteMap :
    (0x3F#8).toNat ≤ 0x3F ∧ 0x40 ≤ (0x40#8).toNat ∧ (0x7F#8).toNat ≤ 0x7F ∧ 0x80 ≤ (0x80#8).toNat ∧ (0xBF#8).toNat ≤ 0xBF ∧
    0xC0 ≤ (0xC0#8).toNat ∧ (0xFD#8).toNat ≤ 0xFD ∧ (0xFE#8).toNat = 0xFE ∧ (0xFF#8).toNat = 0xFF := by decide

theorem witness_StepRunsDecodedInstruction :
    Running (ready [0xA5, 0x5F]) ∧ (ready [0xA5, 0x5F]).outLen < (ready [0xA5, 0x5F]).target ∧
    InputHas (ready [0xA5, 0x5F]) (ready [0xA5, 0x5F]).cur [0xA5, 0x5F] ∧
    decode (ready [0xA5, 0x5F]).stage [0xA5, 0x5F] = .ok (.luma 37 5 15, []) := by
  unfold Running InputHas
  decide

/-- The three clauses: `OUT_LEN = TARGET`; the cursor at the end of the stream; an opcode that ends the stream. -/
theorem witness_OpcodeStageStep :
    ({ ready [] with outLen := 64 } : State).target ≤ ({ ready [] with outLen := 64 } : State).outLen ∧
    ((ready []).outLen < (ready []).target ∧ (ready []).inLen ≤ (ready []).cur) ∧
    ((ready [0xFD]).outLen < (ready [0xFD]).target ∧ (Instr.run 61).stage = .opcode ∧ (Instr.run 61).wellFormed = true ∧
      InputHas (ready [0xFD]) (ready [0xFD]).cur (encode (.run 61))) := by
  unfold InputHas
  decide

/-- An RGB with two of its three payload bytes, and an end marker with seven of its eight bytes. -/
theorem witness_ShortReadRaisesUnexpectedEof :
    ((Instr.rgb 1 2 3).stage = (ready [0xFE, 1, 2]).stage ∧ (ready [0xFE, 1, 2]).outLen < (ready [0xFE, 1, 2]).target ∧
      3 < (Instr.rgb 1 2 3).length ∧ InputHas (ready [0xFE, 1, 2]) (ready [0xFE, 1, 2]).cur ((encode (.rgb 1 2 3)).take 3) ∧
      (ready [0xFE, 1, 2]).inLen = (ready [0xFE, 1, 2]).cur + 3) ∧
    (7 < (Instr.endMark 1).length ∧ InputHas (at14 .endMark [0, 0, 0, 0, 0, 0, 0]) 14 ((encode (.endMark 1)).take 7)) := by
  unfold InputHas
  decide

theorem witness_StepEnabledExactlyWhenRunning :
    (Running (ready [0x35]) ∧ Running { State.reset with inLen := 4 }) ∧ (Quiescent doneState ∧ doneState.ctrlStart = false) := by
  unfold Running Quiescent
  decide

/-- Steps that answer a next state: from a quiescent stage, from a running one, and one that fails. -/
theorem witness_steps_next :
    stageOf (step { doneState with ctrlStart := true }) = some .magic ∧ stageOf (step (ready [0x35])) = some .opcode ∧
    stageOf (step (ready [])) = some .failed ∧ Running (ready []) := by
  unfold Running
  decide

theorem witness_StageSuccessors : ∃ t, step (ready [0x35]) = .next t :=
  nextOf_some _ (by decide)

/-- A step of every kind the failure table lists. -/
theorem witness_FailureEntry_FailureTable :
    stageOf (step (onStream [0x71, 0x6F, 0x69, 0x78])) = some .failed ∧ stageOf (step (ready [])) = some .failed ∧
    stageOf (step (at14 .channels [2])) = some .failed ∧ stageOf (step (at14 .colorspace [2])) = some .failed ∧
    stageOf (step (at14 .endMark [1, 0, 0, 0, 0, 0, 0, 0])) = some .failed ∧ Running (at14 .endMark []) := by
  unfold Running
  decide

theorem witness_InputNeverWritten : ∃ t, step (ready [0x35]) = .next t := witness_StageSuccessors

/-- Running steps that do not fail: an opcode and the end of the loop. -/
theorem witness_OutputAppendOnly_CursorOnlyMovesForward_HeaderRegistersWrittenInTheirStage :
    Running (ready [0x35]) ∧ stageOf (step (ready [0x35])) = some .opcode ∧
    stageOf (step { ready [] with outLen := 64 }) = some .endMark := by
  unfold Running
  decide

theorem witness_MagicIsChecked :
    (0x716F6978 : BitVec 32) ≠ 0x716F6966 ∧
    InputHas (onStream [0x71, 0x6F, 0x69, 0x66]) 0 [0x71, 0x6F, 0x69, 0x66] ∧
    (InputHas (onStream [0x71, 0x6F, 0x69, 0x67]) 0 [0x71, 0x6F, 0x69, 0x67] ∧
      ¬((0x71 : Byte) = 0x71 ∧ (0x6F : Byte) = 0x6F ∧ (0x69 : Byte) = 0x69 ∧ (0x67 : Byte) = 0x66)) ∧
    (onStream [0x71, 0x6F, 0x69]).inLen < (onStream [0x71, 0x6F, 0x69]).cur + 4 ∧ (onStream []).stage = .magic := by
  unfold InputHas
  decide

theorem witness_WidthAndHeightAreBigEndian :
    InputHas (at14 .width [0xFF, 0xFF, 0xFF, 0xFF]) 14 [0xFF, 0xFF, 0xFF, 0xFF] ∧
    InputHas (at14 .height [0, 0, 0, 0]) 14 [0, 0, 0, 0] ∧
    (at14 .width [0, 0, 0]).inLen < (at14 .width [0, 0, 0]).cur + 4 := by
  unfold InputHas
  decide

/-- Both sides of both boundaries. -/
theorem witness_ChannelCountIsChecked :
    ((3#8).toNat = 3 ∧ (4#8).toNat = 4 ∧ (2#8).toNat ≤ 2 ∧ 5 ≤ (5#8).toNat) ∧ InputHas (at14 .channels [3]) 14 [3] ∧
    (at14 .channels []).inLen ≤ (at14 .channels []).cur := by
  unfold InputHas
  decide

theorem witness_ColorspaceFormsTarget :
    ((0#8).toNat = 0 ∧ (1#8).toNat = 1 ∧ 2 ≤ (2#8).toNat) ∧ InputHas (at14 .colorspace [1]) 14 [1] ∧
    (at14 .colorspace []).inLen ≤ (at14 .colorspace []).cur := by
  unfold InputHas
  decide

/-- The zero-pixel stream (an image of width 0 and height 1): a whole stream of 22 bytes. -/
def zeroPixelStream : List Byte :=
  [0x71, 0x6F, 0x69, 0x66, 0, 0, 0, 0, 0, 0, 0, 1, 4, 0, 0, 0, 0, 0, 0, 0, 0, 1]

/-- Streams of the lengths where the rows of R106 meet. -/
theorem witness_HeaderVerdict :
    ∀ n ∈ [0, 3, 4, 7, 8, 11, 12, 13, 14, 22],
      (onStream (zeroPixelStream.take n)).inLen = n ∧ (onStream (zeroPixelStream.take n)).stage = .magic ∧
      (onStream (zeroPixelStream.take n)).cur = 0 := by decide

/-- R106, its last row, and the row before it on 13 bytes. -/
theorem test_header_reads_placed_bytes :
    (onStream zeroPixelStream).inBytes 0 4 = [0x71, 0x6F, 0x69, 0x66] ∧ (onStream zeroPixelStream).inByte 12 = 4 ∧
    (onStream zeroPixelStream).inByte 13 = 0 := by decide

theorem witness_HeaderLeavesPixelState :
    stageOf (step (onStream [0x71, 0x6F, 0x69, 0x66])) = some .width ∧
    stageOf (step (at14 .colorspace [1])) = some .opcode := by decide

theorem witness_RgbKeepsAlpha_RgbaTakesAllChannels :
    (OpcodeReady (ready [0xFE, 1, 2]) ∧ InputHas (ready [0xFE, 1, 2]) 14 [0xFE] ∧ (ready [0xFE, 1, 2]).inLen < 14 + 4) ∧
    (OpcodeReady (ready [0xFF, 1, 2, 3]) ∧ InputHas (ready [0xFF, 1, 2, 3]) 14 [0xFF] ∧
      (ready [0xFF, 1, 2, 3]).inLen < 14 + 5) := by
  unfold OpcodeReady InputHas
  decide

/-- The clauses of the six opcode statements about the bytes at the cursor: an opcode of every kind that ends the stream, the
one-byte ones and LUMA at both ends of their ranges. -/
theorem witness_opcode_bytes_at_the_cursor :
    (∀ bs ∈ [[0xFE#8, 1, 2, 3], [0xFF#8, 1, 2, 3, 4], [0x00#8], [0x3F#8], [0x40#8], [0x7F#8], [0x80#8, 0x00], [0xBF#8, 0xFF],
      [0xC0#8], [0xFD#8]], OpcodeReady (ready bs) ∧ InputHas (ready bs) 14 bs) ∧
    (0x3F#8).toNat = (63#6).toNat ∧ (0x7F#8).toNat = 0x40 + (3#2).toNat * 16 + (3#2).toNat * 4 + (3#2).toNat ∧
    (0xBF#8).toNat = 0x80 + (63#6).toNat ∧ (0xFF#8).toNat = (15#4).toNat * 16 + (15#4).toNat ∧
    (0xFD#8).toNat = 0xC0 + (61#6).toNat := by
  unfold OpcodeReady InputHas
  decide

/-- The first and the last slot exist. -/
theorem witness_IndexTakesSlot :
    State.reset.hist[(0#6).toNat]? = some ⟨0, 0, 0, 0⟩ ∧ State.reset.hist[(53#6).toNat]? = some ⟨0, 0, 0, 255⟩ ∧
    State.reset.hist[(63#6).toNat]? = some ⟨0, 0, 0, 0⟩ := by decide

theorem witness_LumaWrapsModulo256 :
    ∀ b ∈ [0x80#8, 0xBF#8], OpcodeReady (ready [b]) ∧ 0x80 ≤ b.toNat ∧ b.toNat ≤ 0xBF ∧ InputHas (ready [b]) 14 [b] ∧
      (ready [b]).inLen = (ready [b]).cur + 1 := by
  unfold OpcodeReady InputHas
  decide

/-- S3: from (255,255,255,7) by +1 each to (0,0,0,7), and both ends of the range. -/
theorem witness_DiffRoundTrip :
    ((0#8).toNat : Int) = ((255#8).toNat + 1) % 256 ∧ ((254#8).toNat : Int) = ((0#8).toNat + (-2)) % 256 ∧
    ((7#8).toNat : Int) = ((7#8).toNat + 0) % 256 := by decide

/-- S4: from (11,20,28) to (13,25,40), and the extremes -40 and 38. -/
theorem witness_LumaRoundTrip :
    ((13#8).toNat : Int) = ((11#8).toNat + 2) % 256 ∧ ((25#8).toNat : Int) = ((20#8).toNat + 5) % 256 ∧
    ((40#8).toNat : Int) = ((28#8).toNat + 12) % 256 ∧ ((216#8).toNat : Int) = ((0#8).toNat + (-40)) % 256 ∧
    ((37#8).toNat : Int) = ((255#8).toNat + 38) % 256 := by decide

/-- An opcode, not a RUN, that answers a next state, and one that changes alpha. -/
theorem witness_HistoryWritesOneSlot_AlphaOnlyFromRgbaOrHistory :
    (Instr.index 5).stage = .opcode ∧ (∀ n : BitVec 6, Instr.index 5 ≠ .run n) ∧ (nextOf (exec (.index 5) State.reset)).map (fun t => t.prev.a) = some 0 ∧
    State.reset.prev.a = 255 ∧ (nextOf (exec (.rgba 1 2 3 4) State.reset)).map (fun t => t.prev.a) = some 4 := by decide

theorem witness_IndexOfPreviousIsRunOfOne :
    (53#6).toNat = (pixelHash State.reset.prev).val ∧ State.reset.hist[(53#6).toNat]? = some State.reset.prev := by decide

theorem witness_EndMarkIsChecked :
    (2 : BitVec 64) ≠ 1 ∧ InputHas (at14 .endMark [0, 0, 0, 0, 0, 0, 0, 1]) 14 [0, 0, 0, 0, 0, 0, 0, 1] ∧
    InputHas (at14 .endMark [1, 0, 0, 0, 0, 0, 0, 0]) 14 [1, 0, 0, 0, 0, 0, 0, 0] ∧
    (at14 .endMark [0, 0, 0, 0, 0, 0, 0]).inLen < (at14 .endMark [0, 0, 0, 0, 0, 0, 0]).cur + 8 := by
  unfold InputHas
  decide

theorem witness_ZeroPixelImageSucceeds :
    (at14 .colorspace [1, 0, 0, 0, 0, 0, 0, 0, 1]).outLen = 0 ∧ (at14 .colorspace [1, 0, 0, 0, 0, 0, 0, 0, 1]).width = 0 ∧
    InputHas (at14 .colorspace [1, 0, 0, 0, 0, 0, 0, 0, 1]) 14 [1, 0, 0, 0, 0, 0, 0, 0, 1] := by
  unfold InputHas
  decide

/-- A history with every slot as the reset leaves it. -/
theorem resetHistory_coherent : ∀ i : Fin 64, resetHistory.get i = Pixel.zero ∨ pixelHash (resetHistory.get i) = i := by decide

/-- The finished zero-pixel decode is a coherent machine. -/
theorem witness_Coherent_done : Coherent doneState ∧ doneState.stage = .done := by
  refine ⟨⟨⟨by decide, by decide⟩, fun a => by simp [doneState, State.reset], ⟨by decide, resetHistory_coherent⟩,
    ⟨by decide, (show 22 ≤ doneState.cur by decide)⟩, ⟨⟨by unfold ChannelsLegal; decide, by decide, by decide, by decide, by decide⟩, by decide⟩, ?_,
    by unfold NoStartWhileBusy; decide⟩, rfl⟩
  show doneState.errStage = .idle
  decide

/-- An opcode about to fill an image of one pixel. -/
def lastPixel : State :=
  { at14 .opcode [0x35] with width := 1, height := 1, channels := 4, target := 4 }

/-- A coherent machine in `S_OPCODE` with a pixel owed, from which there is a step. -/
theorem witness_Coherent_opcode :
    Coherent lastPixel ∧ FitsSixtySixBits lastPixel ∧ HeaderRead lastPixel ∧ lastPixel.outLen < lastPixel.target ∧
    ∃ t, step lastPixel = .next t := by
  have hr : HeaderRead lastPixel := ⟨by unfold ChannelsLegal; decide, by decide, by decide, by decide, by decide⟩
  refine ⟨⟨⟨by decide, by decide⟩, fun a => by simp [lastPixel, at14, State.reset], ⟨by decide, resetHistory_coherent⟩,
    ⟨by decide, (show 14 ≤ lastPixel.cur by decide)⟩, hr, ?_, by unfold NoStartWhileBusy; decide⟩, by unfold FitsSixtySixBits; decide, hr, by decide,
    nextOf_some _ (by decide)⟩
  show lastPixel.errStage = .idle
  decide

/-- For a RUN the premise holds at its boundary: one pixel owed, a run of one. -/
theorem witness_OnlyLongRunPassesTarget :
    lastPixel.outLen + ((0#6).toNat + 1) * lastPixel.channels.toNat ≤ lastPixel.target := by decide

/-- E2: the same eight bytes, with two more behind them, and without. -/
theorem witness_LaterBytesDoNotMatter :
    Running (at14 .endMark [0, 0, 0, 0, 0, 0, 0, 1, 0xAA, 0xBB]) ∧
    (nextOf (step (at14 .endMark [0, 0, 0, 0, 0, 0, 0, 1, 0xAA, 0xBB]))).map (fun t => (t.stage, t.cur)) = some (.done, 22) ∧
    ∀ a, a < 22 → (at14 .endMark [0, 0, 0, 0, 0, 0, 0, 1]).input.read a =
      (at14 .endMark [0, 0, 0, 0, 0, 0, 0, 1, 0xAA, 0xBB]).input.read a := by
  unfold Running
  decide

theorem witness_ColorspaceDoesNotAffectDecoding :
    (ready [0x35]).stage = .opcode ∧ stageOf (step (ready [0x35])) = some .opcode ∧ stageOf (step (ready [])) = some .failed ∧
    stageOf (step (at14 .endMark [0, 0, 0, 0, 0, 0, 0, 1])) = some .done := by decide

theorem witness_StartPerformsDecodeReset :
    Quiescent doneState ∧ Quiescent { doneState with stage := .failed } ∧ Quiescent (powerOn State.reset) ∧
    fits ⟨64, none⟩ doneState.placedHeader = true ∧ fits ⟨64, some 0⟩ doneState.placedHeader = true := by
  unfold Quiescent
  decide

theorem witness_HistoryInvariant : HistoryCoherent (ready [0xFE, 1, 2, 3]) ∧ ∃ t, step (ready [0xFE, 1, 2, 3]) = .next t :=
  ⟨⟨by decide, resetHistory_coherent⟩, nextOf_some _ (by decide)⟩

theorem witness_DecodeResetEstablishesCoherence : Memory.wf (onStream [1, 2, 3]).input := by decide

/-- A step, a register write, a byte write and a launch from a machine with canonical memories. -/
theorem witness_MemoriesStayCanonical :
    MemoriesCanonical doneState ∧ (∃ t, step { doneState with ctrlStart := true } = .next t) ∧
    (∃ t, hostWrite ⟨64, none⟩ .inLen 23 doneState = .next t) ∧ (∃ t, hostWriteIn 22 7 doneState = .next t) ∧
    ∃ t, launch ⟨64, none⟩ [1, 2] doneState = .next t :=
  ⟨⟨by decide, by decide⟩, nextOf_some _ (by decide), nextOf_some _ (by decide), nextOf_some _ (by decide),
    nextOf_some _ (by decide)⟩

theorem witness_EveryDecodeEnds : Running (onStream [0x71]) := by
  unfold Running
  decide

/-- A whole decode, from two machines that differ in `PREV` and in the free values drawn: seven steps to `S_DONE`. -/
theorem witness_EqualStreamsGiveEqualResults :
    ({ onStream zeroPixelStream with prev := ⟨1, 2, 3, 4⟩, freeCount := 9 } : State).input =
      (onStream zeroPixelStream).input ∧
    (nextOf (Sys2Proof.core.run 7 (decodeReset (onStream zeroPixelStream)))).map (fun t => t.stage) = some .done ∧
    ∃ t, Sys2Proof.core.run 7 (decodeReset (onStream zeroPixelStream)) = .next t :=
  ⟨rfl, by decide, nextOf_some _ (by decide)⟩

theorem witness_StartWhileBusyIgnored : Running (ready [0x35]) := by
  unfold Running
  decide

/-- The windows: done with and without a `START` waiting, failed, and running. -/
theorem witness_HostReadWindows :
    (doneState.stage = .done ∧ doneState.ctrlStart = false) ∧ State.reset.stage ≠ .done ∧ State.reset.stage ≠ .failed ∧
    4 ≤ HostReg.width.number := by decide

/-- A finished image of one byte read by the host at both ends of its range. -/
theorem witness_HostBuffersGuarded :
    Running (ready []) ∧ doneState.outLen ≤ 0 ∧
    hostReadOut 3 { doneState with out := [(0, 1), (1, 2), (2, 3), (3, 4)], outLen := 4 } =
      .ok 4 := by
  unfold Running
  decide

/-- A machine at `S_DONE` with one pixel of output, coherent, from which the host reads bytes. -/
def onePixel : State := { doneState with
  width := 1, height := 1, target := 4, out := [(0, 1), (1, 2), (2, 3), (3, 4)], outLen := 4 }

theorem witness_HostBuffersGuarded_coherent : Coherent onePixel ∧ onePixel.stage = .done ∧ onePixel.ctrlStart = false ∧
    3 < onePixel.outLen := by
  refine ⟨⟨⟨by decide, by decide⟩, fun a => ?_, ⟨by decide, resetHistory_coherent⟩, ⟨by decide, (show 22 ≤ onePixel.cur by decide)⟩,
    ⟨⟨by unfold ChannelsLegal; decide, by decide, by decide, by decide, by decide⟩, by decide⟩, ?_,
    by unfold NoStartWhileBusy; decide⟩, rfl, rfl, by decide⟩
  · simp only [onePixel, Memory.read]
    split_ifs <;> simp [Memory.unlisted] <;> omega
  · show onePixel.errStage = .idle
    decide

/-- A stream of one pixel of 4 channels. -/
def onePixelStream : List Byte :=
  [0x71, 0x6F, 0x69, 0x66, 0, 0, 0, 1, 0, 0, 0, 1, 4, 0, 0x35, 0, 0, 0, 0, 0, 0, 0, 1]

/-- It fits an instance of 248 bytes exactly, and an instance of one byte less refuses it. -/
theorem witness_LaunchPlacesStream :
    doneState.inUse = false ∧ headerTarget onePixelStream = some (4, 4) ∧ fits ⟨64, some 248⟩ onePixelStream = true ∧
    247 < (be32 0 0 0 1).toNat * (be32 0 0 0 1).toNat * (4 : Byte).toNat + 61 * (4 : Byte).toNat := by decide

/-- A machine at `S_DONE` with a stream of one pixel, or as much of it as `n` bytes, placed for the next decode. -/
def nextStream (n : Nat) : State := { onStream (onePixelStream.take n) with stage := .done }

/-- Both sides of the capacity on a whole stream, and a stream of 13 bytes, whose header forms no `TARGET`. -/
theorem witness_StartNeedsRoomForTheImage :
    Quiescent (nextStream 23) ∧ InputHas (nextStream 23) 0 (onePixelStream.take 14) ∧
    (nextOf (hostWrite ⟨64, some 248⟩ .ctrl 1 (nextStream 23))).isSome = true ∧
    nextOf (hostWrite ⟨64, some 247⟩ .ctrl 1 (nextStream 23)) = none ∧ (nextStream 13).inLen < 14 ∧
    (nextOf (hostWrite ⟨64, some 0⟩ .ctrl 1 (nextStream 13))).isSome = true := by
  unfold Quiescent InputHas
  decide

/-- R234: headers that fail a check, with a large width and height, ask for no image: a wrong magic, a channel count of 5, a
colorspace of 2. -/
theorem test_failing_headers_have_no_target :
    headerTarget [0x71, 0x6F, 0x69, 0x78, 0xFF, 0, 0, 0, 0xFF, 0, 0, 0, 4, 0] = none ∧
    headerTarget [0x71, 0x6F, 0x69, 0x66, 0xFF, 0, 0, 0, 0xFF, 0, 0, 0, 5, 0] = none ∧
    headerTarget [0x71, 0x6F, 0x69, 0x66, 0xFF, 0, 0, 0, 0xFF, 0, 0, 0, 4, 2] = none := by decide

end Sys2Proof.Tests
end

section
/-! PROOF. In which stages there is a next state (10_state.md R27). -/

namespace Sys2Proof.Machine

open Sys2Proof.Safety

/-- No stage both runs and waits for a `START`. -/
theorem not_running_of_quiescent (s : State) (h : Quiescent s) : ¬ Running s := by
  rcases h with h | h | h <;> simp [Running, State.busy, h, stageCode]

/-- A fetch in a running stage ends in an instruction or a short read: it is never stuck. -/
theorem fetchInstr_of_running (s : State) (h : Running s) :
    fetchInstr s = .raise .unexpectedEof ∨ ∃ i, fetchInstr s = .run i := by
  rcases fetchInstr_cases s with hf | ⟨_, i, _, hf, _⟩ | ⟨_, hq⟩
  · exact .inl hf
  · exact .inr ⟨i, hf⟩
  · exact absurd h (not_running_of_quiescent s hq)

/-- A running stage always has a next state: the end of the loop, a failure, or an instruction, none of which stops. -/
theorem step_next_of_running (s : State) (h : Running s) : ∃ t, step s = .next t := by
  unfold step
  rcases nextAction_cases s with ⟨hq, _⟩ | ⟨_, _, ha⟩ | ⟨_, _, ha⟩
  · exact absurd h (not_running_of_quiescent s hq)
  · exact ⟨_, by rw [ha]⟩
  · rcases fetchInstr_of_running s h with hf | ⟨i, hf⟩
    · exact ⟨_, by rw [ha, hf]⟩
    · simpa only [ha, hf] using exec_next i s.dropStart

/-- A quiescent stage without a waiting `START` has no step. -/
theorem step_fault_of_quiescent (s : State) (hq : Quiescent s) (hc : s.ctrlStart = false) :
    step s = .fault .noStepEnabled := by
  rcases nextAction_cases s with ⟨_, ha⟩ | ⟨hs, _⟩ | ⟨hb, _⟩
  · simp [step, ha, awaitStart, hc]
  · rcases hq with hq | hq | hq <;> simp [hq] at hs
  · exact absurd hb (not_running_of_quiescent s hq)

/-- Settles O8: no running stage is stuck, and a quiescent one waits for its `START`. -/
theorem stepEnabledExactlyWhenRunning : Obligations.StepEnabledExactlyWhenRunning :=
  ⟨step_next_of_running, step_fault_of_quiescent⟩

end Sys2Proof.Machine
end

section
/-! PROOF. After the decode reset two machines with equal input differ in the count of free values drawn and in nothing else.
Every step leaves that the only difference, up to a failure, which draws; and no step follows a failure. -/

namespace Sys2Proof.Machine

open Sys2Proof.Safety

/-- The same machine with another number of free values drawn (log 1). -/
def State.withFreeCount (s : State) (n : Nat) : State := { s with freeCount := n }

@[simp] theorem State.withFreeCount_stage (s : State) (n : Nat) : (s.withFreeCount n).stage = s.stage := rfl
@[simp] theorem State.withFreeCount_result (s : State) (n : Nat) : (s.withFreeCount n).result = s.result := rfl

/-- What the next step does is not decided by the free values drawn. -/
@[simp] theorem nextAction_withFreeCount (s : State) (n : Nat) : nextAction (s.withFreeCount n) = nextAction s := rfl

theorem emitN_withFreeCount (p : Pixel) (k : Nat) (s : State) (n : Nat) :
    emitN p k (s.withFreeCount n) = (emitN p k s).withFreeCount n := by
  simp only [emitN_eq_append]
  rfl

/-- Equal `IN` and `IN_LEN` are all that the decode reset keeps of an earlier decode, but for the count of draws (R33). -/
theorem decodeReset_of_equal_input (s s' : State) (hi : s'.input = s.input) (hl : s'.inLen = s.inLen) :
    decodeReset s' = (decodeReset s).withFreeCount s'.freeCount := by
  simp only [decodeReset, State.withFreeCount, hi, hl]

/-- Whatever the count of free values drawn, the operation raises the same failure, or goes to the same state but for the
count. -/
def IgnoresDraws (op : State → Host.Outcome State Fault Refusal) : Prop :=
  ∀ (s : State) (n : Nat),
    (∃ f, op s = .next (raise f s) ∧ op (s.withFreeCount n) = .next (raise f (s.withFreeCount n))) ∨
    (∃ t, op s = .next t ∧ op (s.withFreeCount n) = .next (t.withFreeCount n))

/-- The meaning of a field that is checked, then taken: the check looks at the field alone. -/
theorem ignoresDraws_checked (ok : Prop) [Decidable ok] (f : Failure) (take : State → State)
    (h : ∀ s n, take (s.withFreeCount n) = (take s).withFreeCount n) :
    IgnoresDraws fun s => if ok then .next (take s) else .next (raise f s) := by
  intro s n
  by_cases hok : ok
  · exact .inr ⟨take s, by simp [hok], by simp [hok, h]⟩
  · exact .inl ⟨f, by simp [hok], by simp [hok]⟩

/-- No instruction's meaning reads the count of free values drawn. -/
theorem exec_ignoresDraws (i : Instr) : IgnoresDraws (exec i) := by
  cases i with
  | magic m => exact ignoresDraws_checked _ _ _ fun _ _ => rfl
  | channels c => exact ignoresDraws_checked _ _ _ fun _ _ => rfl
  | colorspace v => exact ignoresDraws_checked _ _ _ fun _ _ => rfl
  | endMark e => exact ignoresDraws_checked _ _ _ fun _ _ => rfl
  | run k => exact fun s n => .inr ⟨_, rfl, congrArg _ (emitN_withFreeCount s.prev (runLength k) (s.advance 1) n)⟩
  | _ => exact fun s n => .inr ⟨_, rfl, rfl⟩

/-- A step of two machines that differ in the count of free values drawn: the same failure, or again that difference only. -/
theorem step_withFreeCount (s t : State) (n : Nat) (h : step s = .next t) :
    (∃ f, t = raise f s.dropStart ∧ step (s.withFreeCount n) = .next (raise f (s.dropStart.withFreeCount n))) ∨
    step (s.withFreeCount n) = .next (t.withFreeCount n) := by
  unfold step at h ⊢
  rw [nextAction_withFreeCount]
  cases ha : nextAction s <;> simp only [ha, Host.Outcome.next.injEq, reduceCtorEq] at h ⊢
  case reset => exact .inr (h ▸ rfl)
  case loopEnd => exact .inr (h ▸ rfl)
  case raise f => exact .inl ⟨f, h.symm, rfl⟩
  case run i =>
    rcases exec_ignoresDraws i s.dropStart n with ⟨f, h1, h2⟩ | ⟨u, h1, h2⟩ <;>
      obtain rfl := Host.Outcome.next.inj (h1.symm.trans h)
    · exact .inl ⟨f, rfl, h2⟩
    · exact .inr h2

/-- A run of any machine that answers a state has a first step, and the rest answers that state. -/
theorem coreRun_succ_inv (M : Host.Core) (k : Nat) (s t : M.State) (h : M.run (k + 1) s = .next t) :
    ∃ u, M.step s = .next u ∧ M.run k u = .next t := by
  rw [Host.Core.run] at h
  split at h
  · exact ⟨_, ‹_›, h⟩
  · cases h
  · cases h

/-- A run of the decoder ends where its first step stops with a fault. -/
theorem run_fault (k : Nat) (s : State) (r : Fault) (h : step s = .fault r) : Sys2Proof.core.run (k + 1) s = .fault r :=
  coreRun_fault Sys2Proof.core k s r h

/-- No step follows a failure: a run from one that answers a state has made no step. -/
theorem run_raise_dropStart (k : Nat) (f : Failure) (s t : State)
    (h : Sys2Proof.core.run k (raise f s.dropStart) = .next t) : k = 0 ∧ t = raise f s.dropStart := by
  cases k with
  | zero => exact ⟨rfl, (Host.Outcome.next.inj h).symm⟩
  | succ k =>
    rw [run_fault k _ _ (step_fault_of_quiescent _ (.inr (.inr rfl)) rfl)] at h
    cases h

/-- Runs of two machines that differ in the count of free values drawn end in the same stage with the same result. -/
theorem run_withFreeCount (k : Nat) (s t : State) (n : Nat) (h : Sys2Proof.core.run k s = .next t) :
    ∃ t', Sys2Proof.core.run k (s.withFreeCount n) = .next t' ∧ t'.stage = t.stage ∧ t'.result = t.result := by
  induction k generalizing s with
  | zero =>
    obtain rfl := Host.Outcome.next.inj h
    exact ⟨s.withFreeCount n, rfl, s.withFreeCount_stage n, s.withFreeCount_result n⟩
  | succ k ih =>
    obtain ⟨u, hstep, hrest⟩ := coreRun_succ_inv Sys2Proof.core k s t h
    rcases step_withFreeCount s u n hstep with ⟨f, rfl, hstep'⟩ | hstep'
    · obtain ⟨rfl, rfl⟩ := run_raise_dropStart k f s t hrest
      exact ⟨_, run_succ 0 _ _ hstep', rfl, rfl⟩
    · rw [run_succ k _ _ hstep']
      exact ih u hrest

/-- Settles O48: two decode resets with equal input differ in the count of free values drawn only, and runs do not see it. -/
theorem equalStreamsGiveEqualResults : Obligations.EqualStreamsGiveEqualResults := by
  intro s s' k t hi hl hrun
  rw [decodeReset_of_equal_input s s' hi hl]
  exact run_withFreeCount k (decodeReset s) t s'.freeCount hrun

end Sys2Proof.Machine
end

section
/-! PROOF. What the meaning of an instruction can be, said once: every case of `exec`, guards included. -/

namespace Sys2Proof.Machine

/-- The failure that the check of a stage's field raises, where the field has a check (60_exceptions.md R207). -/
def checkFailure : Stage → Option Failure
  | .magic => some .invalidMagic
  | .channels => some .invalidChannelCount
  | .colorspace => some .invalidColorspace
  | .endMark => some .invalidEndMarker
  | _ => none

/-- The states an instruction can lead to from `s`: a failed check, a header field taken, an opcode's commit or run, the end. -/
inductive ExecEffect (s : State) : Instr → State → Prop
  | failed (i : Instr) (f : Failure) (hf : checkFailure i.stage = some f) : ExecEffect s i (raise f s)
  | magic : ExecEffect s (.magic magicWord) ((s.advance 4).goto .width)
  | width (w : BitVec 32) : ExecEffect s (.width w) (State.goto { s.advance 4 with width := w } .height)
  | height (h : BitVec 32) : ExecEffect s (.height h) (State.goto { s.advance 4 with height := h } .channels)
  | channels (c : Byte) (hc : c = 3#8 ∨ c = 4#8) :
    ExecEffect s (.channels c) (State.goto { s.advance 1 with channels := c } .colorspace)
  | colorspace (v : Byte) (hv : v = 0#8 ∨ v = 1#8) :
    ExecEffect s (.colorspace v) (State.goto
      { s.advance 1 with colorspace := v, target := s.width.toNat * s.height.toNat * s.channels.toNat } .opcode)
  | committed (i : Instr) (p : Pixel) (hi : i.stage = .opcode) : ExecEffect s i (commit p (s.advance i.length))
  | run (n : BitVec 6) : ExecEffect s (.run n)
      ((s.advance 1).append (List.replicate (runLength n) (pixelBytes s.channels s.prev)).flatten)
  | endMark : ExecEffect s (.endMark endWord) ((s.advance 8).goto .done)

/-- The inversion of `exec`. -/
theorem exec_effect (i : Instr) (s t : State) (h : exec i s = .next t) : ExecEffect s i t := by
  cases i with
  | magic m =>
    simp only [exec, execMagic] at h
    split_ifs at h with hm <;> cases h
    · exact hm ▸ .magic
    · exact .failed _ _ rfl
  | width w => cases h; exact .width w
  | height v => cases h; exact .height v
  | channels c =>
    simp only [exec, execChannels] at h
    split_ifs at h with hc <;> cases h
    · exact .channels c hc
    · exact .failed _ _ rfl
  | colorspace v =>
    simp only [exec, execColorspace] at h
    split_ifs at h with hv <;> cases h
    · exact .colorspace v hv
    · exact .failed _ _ rfl
  | endMark e =>
    simp only [exec, execEndMark] at h
    split_ifs at h with he <;> cases h
    · exact he ▸ .endMark
    · exact .failed _ _ rfl
  | _ =>
    rcases exec_opcode_shape _ s t rfl h with ⟨p, rfl⟩ | ⟨n, hn, rfl⟩
    · exact .committed _ p rfl
    · exact hn ▸ .run n

/-- An instruction is read in a running stage only. -/
theorem busy_of_instr_stage (s : State) (i : Instr) (h : i.stage = s.stage) : s.busy = true := by
  rw [State.busy, ← h]
  cases i <;> rfl

end Sys2Proof.Machine
end

section
/-! PROOF. The invariant of the decoder (10_state.md R23 to R28): each shared operation keeps it, hence every step does. -/

namespace Sys2Proof.Safety

open Sys2Proof.Machine

/-! ### One clause at a time -/

/-- An append lists exactly the new offsets beside the old ones. -/
theorem outDense_append (s : State) (bs : List Byte) (h : OutDense s) : OutDense (s.append bs) := by
  intro a
  rw [append_read, State.append_outLen]
  split_ifs with ha
  · simp; omega
  · rw [h a]
    omega

/-- A pixel that becomes the previous one goes into the slot of its hash. -/
theorem historyCoherent_remember (s : State) (p : Pixel) (h : HistoryCoherent s) : HistoryCoherent (s.remember p) := by
  have hslot : ∀ i, (s.remember p).hist.get i = if i = pixelHash p then p else s.hist.get i := commit_slot p s
  refine ⟨by rw [hslot, State.remember_prev, if_pos rfl], fun i => ?_⟩
  rw [hslot]
  split_ifs with hi
  · exact .inr hi.symm
  · exact h.2 i

/-- The decode reset seeds the slot of the initial pixel; every other slot is zero (45_history_cache.md R164). -/
theorem historyCoherent_decodeReset (s : State) : HistoryCoherent (decodeReset s) := by
  refine ⟨by rw [decodeReset_slot, decodeReset_prev, if_pos rfl], fun i => ?_⟩
  rw [decodeReset_slot]
  split_ifs with hi
  · exact .inr hi.symm
  · exact .inl rfl

/-- Outside `S_FAILED` no failure is recorded. -/
theorem errCoherent_iff_of_ne_failed (s : State) (h : s.stage ≠ .failed) :
    ErrCoherent s ↔ s.err = none ∧ s.errStage = .idle := by
  unfold ErrCoherent
  split <;> simp_all

/-- A failure records one that its stage can raise: a short read in a running stage, or the stage's own check. -/
theorem errCoherent_raise (f : Failure) (s : State)
    (hf : (f = .unexpectedEof ∧ s.busy = true) ∨ checkFailure s.stage = some f) : ErrCoherent (raise f s) := by
  rcases hf with ⟨rfl, hb⟩ | hf
  · exact (of_decide_eq_true hb : 1 ≤ stageCode s.stage ∧ stageCode s.stage ≤ 7)
  · cases hs : s.stage <;> simp only [hs, checkFailure, reduceCtorEq, Option.some.injEq] at hf <;> subst hf <;> exact hs

/-- From fewer bytes than `TARGET`, up to 62 whole pixels more leave the output within its bound (46_output_controller.md R173):
what is owed is at least one whole pixel. -/
theorem headerRead_append (s : State) (bs : List Byte) (k : Nat) (h : HeaderRead s) (ho : s.outLen < s.target)
    (hbs : bs.length = k * s.channels.toNat) (hk : k ≤ 62) : HeaderRead (s.append bs) := by
  obtain ⟨hch, hcs, htarget, hmod, -⟩ := h
  have hdvd : s.channels.toNat ∣ s.target - s.outLen :=
    Nat.dvd_sub (htarget ▸ Nat.dvd_mul_left _ _) (Nat.dvd_of_mod_eq_zero hmod)
  have howed : s.channels.toNat ≤ s.target - s.outLen := Nat.le_of_dvd (by omega) hdvd
  have hrun : k * s.channels.toNat ≤ 62 * s.channels.toNat := Nat.mul_le_mul_right _ hk
  refine ⟨hch, hcs, htarget, ?_, ?_⟩
  · rw [State.append_outLen, hbs]
    simpa using hmod
  · rw [State.append_outLen, State.append_target, State.append_channels, hbs]
    omega

/-! ### One operation at a time -/

theorem coherent_dropStart (s : State) (h : Coherent s) : Coherent s.dropStart := by
  obtain ⟨hmem, hout, hhist, hcur, hstage, herr, -⟩ := h
  exact ⟨hmem, hout, hhist, hcur, hstage, herr, fun _ => rfl⟩

theorem coherent_decodeReset (s : State) (h : Memory.wf s.input) : Coherent (decodeReset s) :=
  ⟨⟨h, .nil⟩, fun a => by simp, historyCoherent_decodeReset s, ⟨fun _ => Nat.zero_le _, rfl⟩, rfl, rfl, fun _ => rfl⟩

theorem coherent_raise (f : Failure) (s : State) (h : Coherent s)
    (hf : (f = .unexpectedEof ∧ s.busy = true) ∨ checkFailure s.stage = some f) : Coherent (raise f s) := by
  obtain ⟨hmem, -, hhist, -⟩ := h
  exact ⟨⟨hmem.1, .nil⟩, fun a => by simp, hhist, ⟨nofun, trivial⟩, rfl, errCoherent_raise f s hf, nofun⟩

/-- From `s` to `t` only the stage, the cursor, the header registers and `TARGET` may have changed. -/
def OnlyHeaderMoves (s t : State) : Prop :=
  t = { s with stage := t.stage, cur := t.cur, width := t.width, height := t.height, channels := t.channels,
               colorspace := t.colorspace, target := t.target }

/-- Where neither the output nor the history moves, only the clauses about the stage, the cursor and the header are left. -/
theorem coherent_of_onlyHeaderMoves (s t : State) (h : Coherent s) (hb : s.busy = true) (ht : t.stage ≠ .failed)
    (hmoves : OnlyHeaderMoves s t) (hcur : CursorPlaced t) (hstage : StageCoherent t) : Coherent t := by
  obtain ⟨hmem, hout, hhist, -, -, herr, hstart⟩ := h
  have hs : s.stage ≠ .failed := by
    intro hs
    simp [State.busy, hs, stageCode] at hb
  have herr' : ErrCoherent t := by
    rw [errCoherent_iff_of_ne_failed _ ht, hmoves]
    exact (errCoherent_iff_of_ne_failed s hs).1 herr
  obtain ⟨hmem', hout', hhist', hstart'⟩ :
      MemoriesCanonical t ∧ OutDense t ∧ HistoryCoherent t ∧ NoStartWhileBusy t := by
    rw [hmoves]
    exact ⟨hmem, hout, hhist, fun _ => hstart hb⟩
  exact ⟨hmem', hout', hhist', hcur, hstage, herr', hstart'⟩

section Opcode

variable (s : State) (h : Coherent s) (hs : s.stage = .opcode)
include h hs

theorem headerRead_of_opcode : HeaderRead s := by
  obtain ⟨-, -, -, -, hstage, -⟩ := h
  simpa only [StageCoherent, hs] using hstage

theorem coherent_advance (n : Nat) (hn : s.cur + n ≤ s.inLen) : Coherent (s.advance n) := by
  obtain ⟨hmem, hout, hhist, ⟨-, hcur⟩, hstage, herr, hstart⟩ := h
  refine ⟨hmem, hout, hhist, ⟨fun _ => hn, ?_⟩, hstage, herr, hstart⟩
  simp only [State.advance_stage, hs, State.advance_cur] at hcur ⊢
  omega

omit hs in
theorem coherent_remember (p : Pixel) : Coherent (s.remember p) := by
  obtain ⟨hmem, hout, hhist, hcur, hstage, herr, hstart⟩ := h
  exact ⟨hmem, hout, historyCoherent_remember s p hhist, hcur, hstage, herr, hstart⟩

/-- Appending up to 62 whole pixels to an output that lacks one. -/
theorem coherent_append (bs : List Byte) (k : Nat) (ho : s.outLen < s.target)
    (hbs : bs.length = k * s.channels.toNat) (hk : k ≤ 62) : Coherent (s.append bs) := by
  have hread : HeaderRead (s.append bs) := headerRead_append s bs k (headerRead_of_opcode s h hs) ho hbs hk
  obtain ⟨hmem, hout, hhist, hcur, -, herr, hstart⟩ := h
  refine ⟨⟨hmem.1, append_wf s bs hmem.2⟩, outDense_append s bs hout, hhist, hcur, ?_, herr, hstart⟩
  simpa only [StageCoherent, State.append_stage, hs] using hread

theorem coherent_commit (p : Pixel) (ho : s.outLen < s.target) : Coherent (commit p s) := by
  have hlen := pixelBytes_length_legal s.channels p (headerRead_of_opcode s h hs).1
  rw [commit_eq_append]
  exact coherent_append _ (coherent_remember s h p) hs _ 1 ho (by simpa using hlen) (by omega)

theorem coherent_append_run (k : Nat) (p : Pixel) (ho : s.outLen < s.target) (hk : k ≤ 62) :
    Coherent (s.append (List.replicate k (pixelBytes s.channels p)).flatten) := by
  have hlen := pixelBytes_length_legal s.channels p (headerRead_of_opcode s h hs).1
  exact coherent_append s h hs _ k ho (by simp [List.length_flatten, hlen]) hk

/-- At the target the loop ends (46_output_controller.md R172). -/
theorem coherent_endLoop (ho : s.target ≤ s.outLen) : Coherent (endLoop s) := by
  have hb : s.busy = true := by simp [State.busy, hs, stageCode]
  have hread := headerRead_of_opcode s h hs
  have ⟨_, _, _, ⟨hle, hcur⟩, _⟩ := h
  simp only [hs] at hcur
  exact coherent_of_onlyHeaderMoves s _ h hb nofun rfl ⟨fun _ => hle hb, hcur⟩ ⟨hread, ho⟩

end Opcode

/-- Every instruction of the stage, that lies within the stream and is due, keeps the machine coherent. -/
theorem coherent_exec (i : Instr) (s t : State) (h : Coherent s) (hi : i.stage = s.stage) (hw : i.wellFormed = true)
    (hn : s.cur + i.length ≤ s.inLen) (ho : s.stage = .opcode → s.outLen < s.target) (he : ExecEffect s i t) : Coherent t := by
  have hb : s.busy = true := busy_of_instr_stage s i hi
  have ⟨_, _, _, ⟨_, hcur⟩, hstage, _⟩ := h
  simp only [StageCoherent, ← hi] at hcur hstage
  have hmoves := fun t => coherent_of_onlyHeaderMoves s t h hb
  cases he with
  | failed _ f hf => exact coherent_raise f s h (.inr (hi ▸ hf))
  | magic => exact hmoves _ nofun rfl ⟨fun _ => hn, congrArg (· + 4) hcur⟩ hstage
  | width w => exact hmoves _ nofun rfl ⟨fun _ => hn, congrArg (· + 4) hcur⟩ hstage
  | height v => exact hmoves _ nofun rfl ⟨fun _ => hn, congrArg (· + 4) hcur⟩ hstage
  | channels c hc => exact hmoves _ nofun rfl ⟨fun _ => hn, congrArg (· + 1) hcur⟩ ⟨hc, hstage⟩
  | colorspace v hv =>
    obtain ⟨hc, hzero⟩ : ChannelsLegal s ∧ s.outLen = 0 := hstage
    have hread : HeaderRead { s with
        colorspace := v, target := s.width.toNat * s.height.toNat * s.channels.toNat } :=
      ⟨hc, hv, rfl, by simp [hzero], by simp [hzero]⟩
    exact hmoves _ nofun rfl ⟨fun _ => hn, (congrArg (· + 1) hcur).ge⟩ hread
  | committed _ p hop =>
    have hs := hi.symm.trans hop
    exact coherent_commit _ (coherent_advance s h hs _ hn) hs p (ho hs)
  | run n =>
    have hrun : runLength n ≤ 62 := Nat.succ_le_succ (of_decide_eq_true hw)
    exact coherent_append_run _ (coherent_advance s h hi.symm _ hn) hi.symm _ _ (ho hi.symm) hrun
  | endMark => exact hmoves _ nofun rfl ⟨nofun, Nat.add_le_add_right hcur 8⟩ hstage

/-- Settles O42: the decode reset makes the machine coherent, and every other step is an operation that keeps it so. -/
theorem stepKeepsCoherence : Obligations.StepKeepsCoherence := by
  intro s t h hstep
  have hdrop := coherent_dropStart s h
  rcases step_cases s t hstep with ⟨_, _, rfl⟩ | ⟨hs, ho, rfl⟩ | ⟨hb, _, rfl⟩ | ⟨i, hi, hw, hn, _, ho, he⟩
  · exact coherent_decodeReset s h.1.1
  · exact coherent_endLoop _ hdrop hs ho
  · exact coherent_raise _ _ hdrop (.inl ⟨rfl, hb⟩)
  · exact coherent_exec i _ t hdrop hi hw hn ho (exec_effect i _ t he)

/-- Settles O43: the reset gives every clause of the invariant its first value. -/
theorem decodeResetEstablishesCoherence : Obligations.DecodeResetEstablishesCoherence := coherent_decodeReset

/-- Settles O44: the state after reset is a decode reset on an empty input. -/
theorem resetIsCoherent : Obligations.ResetIsCoherent := by
  unfold Obligations.ResetIsCoherent
  rw [reset_eq_decodeReset]
  exact coherent_decodeReset _ State.reset_memories_wf.1

end Sys2Proof.Safety
end

section
/-! PROOF. Reading undoes writing: the bytes a stage consumed are the encoding of the instruction it read from them
(30_encoding.md R83), so the step runs the instruction whose encoding lies at the cursor. -/

namespace Sys2Proof

/-! ### Numbers and their bytes -/

/-- The first byte of a number is the most significant. -/
theorem beNat_cons (b : Byte) (bs : List Byte) : beNat (b :: bs) = b.toNat * 256 ^ bs.length + beNat bs := by
  have hfold : ∀ (bs : List Byte) (acc : Nat),
      bs.foldl (fun acc b => acc * 256 + b.toNat) acc = acc * 256 ^ bs.length + beNat bs := by
    intro bs
    induction bs with
    | nil => simp [beNat]
    | cons b bs ih =>
      intro acc
      simp only [beNat, List.foldl_cons, List.length_cons] at ih ⊢
      rw [ih, ih (0 * 256 + b.toNat)]
      ring
  simp only [beNat, List.foldl_cons] at hfold ⊢
  simpa using hfold bs b.toNat

theorem beNat_lt (bs : List Byte) : beNat bs < 256 ^ bs.length := by
  induction bs with
  | nil => simp [beNat]
  | cons b bs ih =>
    have hb : b.toNat * 256 ^ bs.length ≤ 255 * 256 ^ bs.length := Nat.mul_le_mul_right _ (by omega)
    rw [beNat_cons, List.length_cons, pow_succ]
    omega

/-- The `n` low bytes of a number do not see what lies above them. -/
theorem beBytes_mul_add (n a v : Nat) : beBytes n (a * 256 ^ n + v) = beBytes n v := by
  induction n generalizing a with
  | zero => rfl
  | succ n ih =>
    have hsplit : a * 256 ^ (n + 1) + v = a * 256 * 256 ^ n + v := by ring
    have hhead : (a * 256 * 256 ^ n + v) / 256 ^ n = a * 256 + v / 256 ^ n := by
      rw [Nat.add_comm, Nat.add_mul_div_right _ _ (by positivity), Nat.add_comm]
    have hbyte : BitVec.ofNat 8 (a * 256 + v / 256 ^ n) = BitVec.ofNat 8 (v / 256 ^ n) :=
      BitVec.eq_of_toNat_eq (by simp)
    rw [beBytes, beBytes, hsplit, ih, hhead, hbyte]

/-- The bytes of the number that some bytes make are these bytes. -/
theorem beBytes_beNat (bs : List Byte) : beBytes bs.length (beNat bs) = bs := by
  induction bs with
  | nil => rfl
  | cons b bs ih =>
    have hhead : (b.toNat * 256 ^ bs.length + beNat bs) / 256 ^ bs.length = b.toNat := by
      rw [Nat.add_comm, Nat.add_mul_div_right _ _ (by positivity), Nat.div_eq_of_lt (beNat_lt bs), Nat.zero_add]
    rw [List.length_cons, beBytes, beNat_cons, hhead, beBytes_mul_add, ih, BitVec.ofNat_toNat, BitVec.setWidth_eq]

/-- The same of a word that is as wide as the bytes. -/
theorem beBytes_ofNat_beNat (w : Nat) (bs : List Byte) (hw : 8 * bs.length = w) :
    beBytes bs.length (BitVec.ofNat w (beNat bs)).toNat = bs := by
  have hlt : beNat bs < 2 ^ w := by
    rw [← hw, pow_mul]
    exact beNat_lt bs
  rw [BitVec.toNat_ofNat, Nat.mod_eq_of_lt hlt, beBytes_beNat]

@[simp] theorem beBytes_be32 (b0 b1 b2 b3 : Byte) : beBytes 4 (be32 b0 b1 b2 b3).toNat = [b0, b1, b2, b3] :=
  beBytes_ofNat_beNat 32 [b0, b1, b2, b3] rfl

@[simp] theorem beBytes_be64 (b0 b1 b2 b3 b4 b5 b6 b7 : Byte) :
    beBytes 8 (be64 b0 b1 b2 b3 b4 b5 b6 b7).toNat = [b0, b1, b2, b3, b4, b5, b6, b7] :=
  beBytes_ofNat_beNat 64 [b0, b1, b2, b3, b4, b5, b6, b7] rfl

/-! ### Opcode bytes and their fields -/

/-- The opcode byte an opcode form is told by: a whole byte, or a tag above six bits of the byte (30_encoding.md R79). -/
def OpKind.byte (k : OpKind) (b : Byte) : Byte :=
  match k with
  | .rgb => 0xFE#8
  | .rgba => 0xFF#8
  | .index => 0b00#2 ++ b.extractLsb' 0 6
  | .diff => 0b01#2 ++ b.extractLsb' 0 6
  | .luma => 0b10#2 ++ b.extractLsb' 0 6
  | .run => 0b11#2 ++ b.extractLsb' 0 6

/-- The classification loses nothing of the byte. -/
theorem byte_of_classify (b : Byte) (k : OpKind) (h : classify b = .ok k) : k.byte b = b := by
  revert b
  cases k <;> decide

/-- The three fields of a DIFF byte are its six low bits. -/
theorem diff_fields_append (b : Byte) :
    b.extractLsb' 4 2 ++ b.extractLsb' 2 2 ++ b.extractLsb' 0 2 = b.extractLsb' 0 6 := by
  revert b
  decide

/-- The two fields of LUMA's payload byte are the byte. -/
theorem luma_fields_append (b : Byte) : b.extractLsb' 4 4 ++ b.extractLsb' 0 4 = b := by
  revert b
  decide

/-- For every layout, DIFF's fields go back to where they were read. -/
theorem encodeWith_diffOfFields (lay : DiffLayout) (hi mid lo : BitVec 2) :
    encodeWith lay (diffOfFields lay hi mid lo) = [0b01#2 ++ (hi ++ mid ++ lo)] := by
  cases lay <;> rfl

/-- An opcode that was read encodes to the bytes it was read from. -/
theorem encodeWith_of_decodeOpcode (lay : DiffLayout) (b : Byte) (bs rest : List Byte) (i : Instr)
    (h : decodeOpcode lay b bs = .ok (i, rest)) : encodeWith lay i ++ rest = b :: bs := by
  obtain ⟨k, hk⟩ := classify_total b
  have hb : k.byte b = b := byte_of_classify b k hk
  cases k <;> simp only [decodeOpcode, hk] at h
  case rgb => split at h <;> cases h; exact congrArg (· :: _) hb
  case rgba => split at h <;> cases h; exact congrArg (· :: _) hb
  case index => cases h; exact congrArg (· :: _) hb
  case diff =>
    cases h
    rw [encodeWith_diffOfFields, diff_fields_append]
    exact congrArg (· :: _) hb
  case luma =>
    split at h <;> cases h
    rw [encodeWith, luma_fields_append]
    exact congrArg (· :: _) hb
  case run => cases h; exact congrArg (· :: _) hb

/-- An instruction that was read in some stage encodes to the bytes it was read from. -/
theorem encodeWith_of_decodeWith (lay : DiffLayout) (st : Stage) (bs rest : List Byte) (i : Instr)
    (h : decodeWith lay st bs = .ok (i, rest)) : encodeWith lay i ++ rest = bs := by
  cases st with
  | idle | done | failed => cases h
  | magic | width | height | endMark =>
    simp only [decodeWith] at h
    split at h <;> cases h
    simp [encodeWith]
  | channels | colorspace =>
    simp only [decodeWith] at h
    split at h <;> cases h
    rfl
  | opcode =>
    simp only [decodeWith] at h
    split at h
    · exact encodeWith_of_decodeOpcode lay _ _ _ _ h
    · cases h

end Sys2Proof

namespace Sys2Proof.Machine

open Sys2Proof.Safety

/-- The bytes of every instruction are as many as its stage's two fetches take. -/
theorem fetchLength (i : Instr) : Laws.FetchLength.Statement i := by
  cases i with
  | magic m => exact Laws.FetchLength.magic m
  | width w => exact Laws.FetchLength.width w
  | height h => exact Laws.FetchLength.height h
  | channels c => exact Laws.FetchLength.channels c
  | colorspace v => exact Laws.FetchLength.colorspace v
  | rgb r g b => exact Laws.FetchLength.rgb r g b
  | rgba r g b a => exact Laws.FetchLength.rgba r g b a
  | index k => exact Laws.FetchLength.index k
  | diff fr fg fb => exact Laws.FetchLength.diff fr fg fb
  | luma fdg frg fbg => exact Laws.FetchLength.luma fdg frg fbg
  | run n => exact Laws.FetchLength.run n
  | endMark e => exact Laws.FetchLength.endMark e

/-- The head of a block of bytes lies at the block's place. -/
theorem inputHas_of_append (s : State) (a : Nat) (xs ys : List Byte) (h : InputHas s a (xs ++ ys)) : InputHas s a xs := by
  obtain ⟨hlen, hbytes⟩ := h
  rw [List.length_append] at hlen hbytes
  rw [State.inBytes_append] at hbytes
  exact ⟨by omega, (List.append_inj hbytes (by simp)).1⟩

/-- The encoding of a fetched instruction lies at the cursor. -/
theorem inputHas_of_fetchInstr_run (s : State) (i : Instr) (h : fetchInstr s = .run i) : InputHas s s.cur (encode i) := by
  rcases fetchInstr_cases s with h' | ⟨n, j, rest, h', hn, hd⟩ | ⟨h', _⟩ <;> rw [h'] at h <;> cases h
  have hbytes : encode i ++ rest = s.inBytes s.cur n := encodeWith_of_decodeWith _ _ _ _ _ hd
  apply inputHas_of_append s s.cur (encode i) rest
  rw [hbytes]
  exact ⟨by simpa using hn, by simp⟩

/-- A fetch of as many bytes as lie there gives these bytes. -/
theorem fetch_of_inputHas (s : State) (a : Nat) (bs : List Byte) (h : InputHas s a bs) : fetch s a bs.length = some bs := by
  rw [fetch, if_neg (by have := h.1; omega), h.2]

/-- The rest of a block of bytes lies behind its head. -/
theorem inputHas_of_append_right (s : State) (a : Nat) (xs ys : List Byte) (h : InputHas s a (xs ++ ys)) :
    InputHas s (a + xs.length) ys := by
  obtain ⟨hlen, hbytes⟩ := h
  rw [List.length_append] at hlen hbytes
  rw [State.inBytes_append] at hbytes
  exact ⟨by omega, (List.append_inj hbytes (by simp)).2⟩

/-- What decodes whole from the bytes at the cursor is the instruction fetched: the two fetches take exactly these bytes. -/
theorem fetchInstr_of_decode (s : State) (bs : List Byte) (i : Instr) (h : InputHas s s.cur bs)
    (hd : decode s.stage bs = .ok (i, [])) : fetchInstr s = .run i := by
  obtain ⟨hstage, -, hw⟩ := decodeWith_shape _ _ _ _ _ hd
  have henc : encode i = bs := by simpa [encode] using encodeWith_of_decodeWith _ _ _ _ _ hd
  obtain ⟨hlen, hsum⟩ := fetchLength i hw
  rw [henc, hstage] at hsum
  rw [henc] at hlen
  have hfirst : (bs.take (firstFetch s.stage)).length = firstFetch s.stage := by simp; omega
  have hpayload : (bs.drop (firstFetch s.stage)).length =
      payloadLength s.stage (bs.take (firstFetch s.stage)) := by simp; omega
  have hcut : InputHas s s.cur (bs.take (firstFetch s.stage) ++ bs.drop (firstFetch s.stage)) := by
    rwa [List.take_append_drop]
  have hfetch1 := fetch_of_inputHas s _ _ (inputHas_of_append s _ _ _ hcut)
  have hfetch2 := fetch_of_inputHas s _ _ (inputHas_of_append_right s _ _ _ hcut)
  rw [hfirst] at hfetch1
  rw [hpayload] at hfetch2
  simp only [fetchInstr, hfetch1, hfetch2, List.take_append_drop, hd]

/-- In a running stage, with pixels owed in `S_OPCODE`, the step fetches. -/
theorem nextAction_of_running (s : State) (h : Running s) (ho : s.stage = .opcode → s.outLen < s.target) :
    nextAction s = fetchInstr s := by
  rcases nextAction_cases s with ⟨hq, _⟩ | ⟨hs, hge, _⟩ | ⟨_, _, ha⟩
  · exact absurd h (not_running_of_quiescent s hq)
  · exact absurd (ho hs) (by omega)
  · exact ha

/-- Settles O5: the bytes that decode to the instruction are its encoding, which is exactly what the step fetches. -/
theorem stepRunsDecodedInstruction : Obligations.StepRunsDecodedInstruction := by
  intro s bs i hrun ho hin hd
  rw [step, nextAction_of_running s hrun ho, fetchInstr_of_decode s bs i hin hd]

end Sys2Proof.Machine
end

section
/-! PROOF. The stage, the cursor and the header registers over one step (10_state.md R23 to R27). -/

namespace Sys2Proof.Machine

open Sys2Proof.Safety

/-- A check fails, an opcode stays in `S_OPCODE`, and a field leads to the next stage in order. -/
theorem execEffect_stage (i : Instr) (s t : State) (hi : i.stage = s.stage) (he : ExecEffect s i t) :
    t.stage = .failed ∨ (s.stage = .opcode ∧ t.stage = .opcode) ∨ stageCode t.stage = stageCode s.stage + 1 := by
  cases he with
  | failed => exact .inl rfl
  | committed _ p hop => exact .inr (.inl ⟨hi ▸ hop, hi ▸ hop⟩)
  | run n => exact .inr (.inl ⟨hi.symm, hi.symm⟩)
  | _ => exact .inr (.inr (hi ▸ rfl))

/-- Settles O9, by the cases of a step and of an instruction. -/
theorem stageSuccessors : Obligations.StageSuccessors := by
  intro s t hstep
  rcases step_cases s t hstep with ⟨hq, _, rfl⟩ | ⟨hs, _, rfl⟩ | ⟨hb, _, rfl⟩ | ⟨i, hi, _, _, _, _, hx⟩
  · exact .inl ⟨hq, rfl⟩
  · exact .inr ⟨by simp [Running, State.busy, hs, stageCode], .inr (.inr (by rw [hs]; rfl))⟩
  · exact .inr ⟨hb, .inl rfl⟩
  · exact .inr ⟨busy_of_instr_stage s i hi, execEffect_stage i s.dropStart t hi (exec_effect i _ t hx)⟩

/-- An instruction that does not fail moves the cursor by its length. -/
theorem execEffect_cur (i : Instr) (s t : State) (ht : t.stage ≠ .failed) (he : ExecEffect s i t) :
    t.cur = s.cur + i.length := by
  cases he with
  | failed => exact absurd rfl ht
  | _ => rfl

/-- Settles O14: the end of the loop fetches nothing, and an instruction that runs was fetched from the cursor. -/
theorem cursorOnlyMovesForward : Obligations.CursorOnlyMovesForward := by
  intro s t hrun hstep ht
  rcases step_cases s t hstep with ⟨hq, _⟩ | ⟨hs, _, rfl⟩ | ⟨_, _, rfl⟩ | ⟨i, hi, hw, hn, hf, _, hx⟩
  · exact absurd hrun (not_running_of_quiescent s hq)
  · exact .inl ⟨rfl, hs, rfl⟩
  · exact absurd rfl ht
  · have hcur : t.cur = s.cur + i.length := execEffect_cur i s.dropStart t ht (exec_effect i _ t hx)
    exact .inr ⟨i, hw, hi, hcur, by omega, inputHas_of_fetchInstr_run s i hf⟩

/-- An instruction that does not fail writes a header register only if it is that register's field; the colorspace field forms
`TARGET` too. -/
theorem execEffect_headerRegisters (i : Instr) (s t : State) (ht : t.stage ≠ .failed) (he : ExecEffect s i t) :
    (i.stage ≠ .width → t.width = s.width) ∧ (i.stage ≠ .height → t.height = s.height) ∧
    (i.stage ≠ .channels → t.channels = s.channels) ∧
    (i.stage ≠ .colorspace → t.colorspace = s.colorspace ∧ t.target = s.target) := by
  cases he with
  | failed => exact absurd rfl ht
  | width w => exact ⟨fun h => absurd rfl h, fun _ => rfl, fun _ => rfl, fun _ => ⟨rfl, rfl⟩⟩
  | height v => exact ⟨fun _ => rfl, fun h => absurd rfl h, fun _ => rfl, fun _ => ⟨rfl, rfl⟩⟩
  | channels c => exact ⟨fun _ => rfl, fun _ => rfl, fun h => absurd rfl h, fun _ => ⟨rfl, rfl⟩⟩
  | colorspace v => exact ⟨fun _ => rfl, fun _ => rfl, fun _ => rfl, fun h => absurd rfl h⟩
  | _ => exact ⟨fun _ => rfl, fun _ => rfl, fun _ => rfl, fun _ => ⟨rfl, rfl⟩⟩

/-- Settles O21: the end of the loop writes no register, and an instruction only the one its stage is named for. -/
theorem headerRegistersWrittenInTheirStage : Obligations.HeaderRegistersWrittenInTheirStage := by
  intro s t hrun hstep ht
  rcases step_cases s t hstep with ⟨hq, _⟩ | ⟨_, _, rfl⟩ | ⟨_, _, rfl⟩ | ⟨i, hi, _, _, _, _, hx⟩
  · exact absurd hrun (not_running_of_quiescent s hq)
  · exact ⟨fun _ => rfl, fun _ => rfl, fun _ => rfl, fun _ => ⟨rfl, rfl⟩⟩
  · exact absurd rfl ht
  · exact hi ▸ execEffect_headerRegisters i s.dropStart t ht (exec_effect i _ t hx)

end Sys2Proof.Machine
end

section
/-! PROOF. The colorspace is a tag (10_state.md R24): once it is recorded, no step reads it. -/

namespace Sys2Proof.Machine

open Sys2Proof.Safety

/-- The same machine with another colorspace recorded. -/
def State.withColorspace (s : State) (v : Byte) : State := { s with colorspace := v }

/-- What the next step does is not decided by the colorspace. -/
@[simp] theorem nextAction_withColorspace (s : State) (v : Byte) : nextAction (s.withColorspace v) = nextAction s := rfl

/-- After a failure the register holds a free value, whatever it held before (log 1). -/
@[simp] theorem raise_withColorspace (f : Failure) (s : State) (v : Byte) : raise f (s.withColorspace v) = raise f s := rfl

theorem emitN_withColorspace (p : Pixel) (k : Nat) (s : State) (v : Byte) :
    emitN p k (s.withColorspace v) = (emitN p k s).withColorspace v := by
  simp only [emitN_eq_append]
  rfl

/-- No opcode reads or writes the colorspace. -/
theorem exec_opcode_withColorspace (i : Instr) (s t : State) (v : Byte) (hi : i.stage = .opcode) (h : exec i s = .next t) :
    exec i (s.withColorspace v) = .next (t.withColorspace v) := by
  cases i with
  | rgb | rgba | index | diff | luma => cases h; rfl
  | run n => cases h; exact congrArg _ (emitN_withColorspace s.prev (runLength n) (s.advance 1) v)
  | magic | width | height | channels | colorspace | endMark => cases hi

/-- `t` answers a step; `u` answers it where the colorspace recorded is `v`: the same state with that colorspace, or the same
failed state. -/
def SameUpToColorspace (v : Byte) (t u : State) : Prop :=
  (t.stage ≠ .failed → u = t.withColorspace v) ∧ (t.stage = .failed → u = t)

/-- Where the stage is not `S_FAILED` the tag is all that differs. -/
theorem sameUpToColorspace_of_ne_failed (v : Byte) (t : State) (ht : t.stage ≠ .failed) :
    SameUpToColorspace v t (t.withColorspace v) := ⟨fun _ => rfl, fun h => absurd h ht⟩

/-- The failed state is the same. -/
theorem sameUpToColorspace_raise (v : Byte) (f : Failure) (s : State) :
    SameUpToColorspace v (raise f s) (raise f s) := ⟨fun h => absurd rfl h, fun _ => rfl⟩

/-- An instruction of the last two running stages does not see the colorspace: the end marker is compared with the marker, and
an opcode works on the pixels. -/
theorem exec_withColorspace (i : Instr) (s t : State) (v : Byte) (hi : i.stage = s.stage)
    (hs : s.stage = .opcode ∨ s.stage = .endMark) (h : exec i s = .next t) :
    ∃ u, exec i (s.withColorspace v) = .next u ∧ SameUpToColorspace v t u := by
  rcases hs with hs | hs
  · have ht : t.stage ≠ .failed := by
      rcases exec_opcode_shape i s t (hi.trans hs) h with ⟨p, rfl⟩ | ⟨n, _, rfl⟩ <;> simp [hs]
    exact ⟨_, exec_opcode_withColorspace i s t v (hi.trans hs) h, sameUpToColorspace_of_ne_failed v t ht⟩
  · rw [hs] at hi
    cases i with
    | endMark e =>
      simp only [exec, execEndMark] at h ⊢
      split_ifs at h ⊢ <;> cases h
      · exact ⟨_, rfl, sameUpToColorspace_of_ne_failed v _ nofun⟩
      · exact ⟨_, rfl, sameUpToColorspace_raise v _ s⟩
    | _ => cases hi

/-- A step of the last two running stages does not see the colorspace. -/
theorem step_withColorspace (s t : State) (v : Byte) (hs : s.stage = .opcode ∨ s.stage = .endMark) (h : step s = .next t) :
    ∃ u, step (s.withColorspace v) = .next u ∧ SameUpToColorspace v t u := by
  have hrun : Running s := by rcases hs with hs | hs <;> simp [Running, State.busy, hs, stageCode]
  unfold step at h ⊢
  rw [nextAction_withColorspace]
  rcases nextAction_cases s with ⟨hq, _⟩ | ⟨_, _, ha⟩ | ⟨_, _, ha⟩
  · exact absurd hrun (not_running_of_quiescent s hq)
  · rw [ha] at h ⊢
    cases h
    exact ⟨_, rfl, sameUpToColorspace_of_ne_failed v _ nofun⟩
  · rw [ha] at h ⊢
    rcases fetchInstr_of_running s hrun with hf | ⟨i, hf⟩ <;> rw [hf] at h ⊢
    · cases h
      exact ⟨_, rfl, sameUpToColorspace_raise v _ s.dropStart⟩
    · exact exec_withColorspace i s.dropStart t v (fetchInstr_run s i hf).1 hs h

/-- Settles O39: the step of the machine with the other tag, read once where it fails and once where it does not. -/
theorem colorspaceDoesNotAffectDecoding : Obligations.ColorspaceDoesNotAffectDecoding := by
  intro s t v hs hstep
  obtain ⟨u, hu, hmoves, hfailed⟩ := step_withColorspace s t v hs hstep
  exact ⟨fun ht => hu.trans (congrArg _ (hmoves ht)), fun ht => hu.trans (congrArg _ (hfailed ht))⟩

end Sys2Proof.Machine
end

section
/-! PROOF. `TARGET` and `OUT_LEN` in 66 bits (10_state.md R25, R26, D3). -/

namespace Sys2Proof.Safety

open Sys2Proof.Machine

/-- Two sizes of 32 bits and at most four channels, with the 61 pixels a RUN may add: less than 2^66. -/
theorem fitsSixtySixBits_of_headerRead (s : State) (h : HeaderRead s) : FitsSixtySixBits s := by
  obtain ⟨hch, -, htarget, -, hlen⟩ := h
  have hch4 : s.channels.toNat ≤ 4 := by rcases hch with hc | hc <;> simp [hc]
  have hpixels : s.width.toNat * s.height.toNat ≤ (2 ^ 32 - 1) * (2 ^ 32 - 1) :=
    Nat.mul_le_mul (by omega) (by omega)
  have hbytes : s.target ≤ (2 ^ 32 - 1) * (2 ^ 32 - 1) * 4 := htarget ▸ Nat.mul_le_mul hpixels hch4
  exact ⟨by omega, by omega⟩

/-- After a failure `TARGET` is a free value of its own width (log 1) and the output is empty (log 5). -/
theorem fitsSixtySixBits_raise (f : Failure) (s : State) : FitsSixtySixBits (raise f s) := by
  refine ⟨BitVec.isLt _, ?_⟩
  rw [raise_outLen]
  decide

/-- In `S_OPCODE` the bound is the invariant's. -/
theorem fitsSixtySixBits_of_opcode (s : State) (h : Coherent s) (hs : s.stage = .opcode) : FitsSixtySixBits s :=
  fitsSixtySixBits_of_headerRead s (headerRead_of_opcode s h hs)

/-- Settles O45: a step that ends in `S_OPCODE` keeps the invariant, which bounds both, and no other step makes one grow. -/
theorem lengthsFitSixtySixBits : Obligations.LengthsFitSixtySixBits := by
  intro s t hcoh hfits hstep
  have hcoh' : Coherent t := stepKeepsCoherence s t hcoh hstep
  rcases step_cases s t hstep with ⟨_, _, rfl⟩ | ⟨_, _, rfl⟩ | ⟨_, _, rfl⟩ | ⟨i, hi, _, _, _, _, hx⟩
  · exact ⟨by simp, by simp⟩
  · exact hfits
  · exact fitsSixtySixBits_raise _ _
  · cases exec_effect i _ t hx with
    | failed => exact fitsSixtySixBits_raise _ _
    | colorspace v => exact fitsSixtySixBits_of_opcode _ hcoh' rfl
    | committed _ p hop => exact fitsSixtySixBits_of_opcode _ hcoh' (hi ▸ hop)
    | run n => exact fitsSixtySixBits_of_opcode _ hcoh' hi.symm
    | magic | width | height | channels | endMark => exact hfits

end Sys2Proof.Safety
end

section
/-! PROOF. What the host reads (10_state.md R29, R31). -/

namespace Sys2Proof.Machine

theorem isDone_iff (s : State) : s.isDone = true ↔ s.stage = .done := by
  rw [State.isDone]
  cases s.stage <;> simp [stageCode]

theorem isFail_iff (s : State) : s.isFail = true ↔ s.stage = .failed := by
  rw [State.isFail]
  cases s.stage <;> simp [stageCode]

/-- `STATUS`, its three flags written out by the stage. -/
theorem statusWord_eq (s : State) :
    statusWord s = (if 1 ≤ stageCode s.stage ∧ stageCode s.stage ≤ 7 then 1 else 0) + (if s.stage = .done then 2 else 0) +
      (if s.stage = .failed then 4 else 0) + 16 * stageCode s.stage := by
  rw [statusWord, State.busy, State.isDone, State.isFail]
  cases s.stage <;> rfl

/-- A result register at `S_DONE` with no `START` waiting. -/
theorem readResult_of_done (s : State) (v : Nat) (hs : s.stage = .done) (hc : s.ctrlStart = false) :
    readResult s v = .ok v := by
  simp [readResult, State.resultReady, (isDone_iff s).2 hs, hc]

/-- A result register outside `S_DONE`. -/
theorem readResult_of_ne_done (s : State) (v : Nat) (hs : s.stage ≠ .done) :
    readResult s v = .error .readOutsideWindow := by
  simp [readResult, State.resultReady, mt (isDone_iff s).1 hs]

/-- Settles O51: `STATUS` and `ERR` by the stage, the result registers by the window. -/
theorem hostReadWindows : Obligations.HostReadWindows := by
  intro s
  refine ⟨rfl, rfl, congrArg Except.ok (statusWord_eq s), fun hs => ?_, fun hs => ?_, fun hs hc => ?_, fun hs reg hreg => ?_⟩
  · simp [hostRead, errWord, mt (isFail_iff s).1 hs]
  · simp [hostRead, errWord, (isFail_iff s).2 hs]
  · have hread := fun v => readResult_of_done s v hs hc
    exact ⟨hread _, hread _, hread _, hread _, hread _, hread _⟩
  · cases reg with
    | ctrl | status | err | inLen => simp [HostReg.number] at hreg
    | width | height | channels | colorspace | outLen | target => exact readResult_of_ne_done s _ hs

end Sys2Proof.Machine
end

section
/-! PROOF. A stream that ends inside an instruction (20_memory.md R53): of the instructions of one stage none is encoded as the
beginning of another, so the bytes left are too few for any. -/

namespace Sys2Proof.Machine

open Sys2Proof.Safety

/-- Of two blocks of bytes at one place the shorter is the beginning of the longer. -/
theorem prefix_of_inputHas (s : State) (a : Nat) (xs ys : List Byte) (hx : InputHas s a xs) (hy : InputHas s a ys)
    (h : xs.length ≤ ys.length) : xs <+: ys := by
  have hcut := s.inBytes_append a xs.length (ys.length - xs.length)
  rw [Nat.add_sub_cancel' h, hx.2, hy.2] at hcut
  exact ⟨_, hcut.symm⟩

/-- In one stage no encoding is a proper beginning of another: what a stage fetches first decides the length (30_encoding.md
R82). -/
theorem length_eq_of_encode_prefix (i j : Instr) (hi : i.wellFormed = true) (hj : j.wellFormed = true)
    (hs : j.stage = i.stage) (h : encode j <+: encode i) : j.length = i.length := by
  obtain ⟨-, hsumi⟩ := fetchLength i hi
  obtain ⟨hlenj, hsumj⟩ := fetchLength j hj
  rw [hs] at hsumj
  have hfirst : (encode j).take (firstFetch i.stage) = (encode i).take (firstFetch i.stage) := by
    rw [List.prefix_iff_eq_take.1 h, List.take_take, Nat.min_eq_left (by omega)]
  rw [← hsumi, ← hsumj, hfirst]

/-- Where the stream ends inside the instruction at the cursor, the fetch is a short read: what it fetched instead would be
encoded as a beginning of that instruction. -/
theorem fetchInstr_of_cut (s : State) (i : Instr) (k : Nat) (hw : i.wellFormed = true) (hi : i.stage = s.stage)
    (hk : k < i.length) (hin : InputHas s s.cur ((encode i).take k)) (hend : s.inLen = s.cur + k) :
    fetchInstr s = .raise .unexpectedEof := by
  rcases fetchInstr_of_running s (busy_of_instr_stage s i hi) with hf | ⟨j, hf⟩
  · exact hf
  · obtain ⟨hj, hwj, hfits⟩ := fetchInstr_run s j hf
    have hleni : (encode i).length = i.length := (fetchLength i hw).1
    have hlenj : (encode j).length = j.length := (fetchLength j hwj).1
    have hcut : encode j <+: (encode i).take k :=
      prefix_of_inputHas s s.cur _ _ (inputHas_of_fetchInstr_run s j hf) hin (by rw [List.length_take]; omega)
    have hsame : j.length = i.length :=
      length_eq_of_encode_prefix i j hw hwj (hj.trans hi.symm) (hcut.trans (List.take_prefix k _))
    omega

/-- A failure taken is recorded with its stage, and is the result (60_exceptions.md R211, R212). -/
theorem raises_raise_dropStart (f : Failure) (s : State) : Raises s (raise f s.dropStart) f := ⟨rfl, rfl, rfl, rfl⟩

/-- Settles O7: the step fetches, and the fetch is a short read. -/
theorem shortReadRaisesUnexpectedEof : Obligations.ShortReadRaisesUnexpectedEof := by
  intro s i k hw hi ho hk hin hend
  refine ⟨raise .unexpectedEof s.dropStart, ?_, raises_raise_dropStart _ s⟩
  rw [step, nextAction_of_running s (busy_of_instr_stage s i hi) ho, fetchInstr_of_cut s i k hw hi hk hin hend]

end Sys2Proof.Machine
end

section
/-! PROOF. The two memories over one step and over the host's moves (20_memory.md R50, R51): the input is the host's alone, and
the output is appended to or emptied. -/

namespace Sys2Proof.Machine

open Sys2Proof.Safety

/-! ### Steps -/

/-- No instruction touches the input. -/
theorem execEffect_input (i : Instr) (s t : State) (he : ExecEffect s i t) : t.input = s.input ∧ t.inLen = s.inLen := by
  cases he <;> exact ⟨rfl, rfl⟩

/-- Settles O12: a step is the decode reset, the end of the loop, a failure or an instruction, and each leaves the input. -/
theorem inputNeverWritten : Obligations.InputNeverWritten := by
  intro s t hstep
  rcases step_cases s t hstep with ⟨_, _, rfl⟩ | ⟨_, _, rfl⟩ | ⟨_, _, rfl⟩ | ⟨i, _, _, _, _, _, hx⟩
  · exact ⟨rfl, rfl⟩
  · exact ⟨rfl, rfl⟩
  · exact ⟨rfl, rfl⟩
  · exact execEffect_input i s.dropStart t (exec_effect i _ t hx)

/-- An instruction keeps the output canonical: it drops it, appends to it, or leaves it. -/
theorem execEffect_out_wf (i : Instr) (s t : State) (h : Memory.wf s.out) (he : ExecEffect s i t) : Memory.wf t.out := by
  cases he with
  | failed => exact .nil
  | committed _ p => exact append_wf ((s.advance i.length).remember p) _ h
  | run n => exact append_wf (s.advance 1) _ h
  | magic | width | height | channels | colorspace | endMark => exact h

/-- So does a step: the decode reset and a failure empty the output, the end of the loop leaves it. -/
theorem step_out_wf (s t : State) (h : Memory.wf s.out) (hstep : step s = .next t) : Memory.wf t.out := by
  rcases step_cases s t hstep with ⟨_, _, rfl⟩ | ⟨_, _, rfl⟩ | ⟨_, _, rfl⟩ | ⟨i, _, _, _, _, _, hx⟩
  · exact .nil
  · exact h
  · exact .nil
  · exact execEffect_out_wf i s.dropStart t h (exec_effect i _ t hx)

theorem memoriesCanonical_step (s t : State) (h : MemoriesCanonical s) (hstep : step s = .next t) : MemoriesCanonical t := by
  obtain ⟨hin, hout⟩ := h
  obtain ⟨hinput, -⟩ := inputNeverWritten s t hstep
  exact ⟨hinput ▸ hin, step_out_wf s t hout hstep⟩

/-! ### Moves of the host -/

theorem memoriesCanonical_writeCtrl (p : Config.Params) (v : Nat) (s t : State) (h : MemoriesCanonical s)
    (hmove : writeCtrl p v s = .next t) : MemoriesCanonical t := by
  rcases writeCtrl_cases p v s t hmove with rfl | ⟨_, _, rfl⟩ <;> exact h

/-- No register is a byte of a memory. -/
theorem memoriesCanonical_hostWrite (s t : State) (p : Config.Params) (reg : HostReg) (v : Nat) (h : MemoriesCanonical s)
    (hmove : hostWrite p reg v s = .next t) : MemoriesCanonical t := by
  cases reg with
  | ctrl => exact memoriesCanonical_writeCtrl p v s t h hmove
  | inLen =>
    simp only [hostWrite] at hmove
    split_ifs at hmove
    cases hmove
    exact h
  | status | err | width | height | channels | colorspace | outLen | target => cases hmove

theorem memoriesCanonical_hostWriteIn (s t : State) (a : Nat) (b : Byte) (h : MemoriesCanonical s)
    (hmove : hostWriteIn a b s = .next t) : MemoriesCanonical t := by
  unfold hostWriteIn at hmove
  split_ifs at hmove
  cases hmove
  exact ⟨Memory.write_wf s.input a b h.1, h.2⟩

/-- A launch places the stream, then writes `CTRL`. -/
theorem memoriesCanonical_launch (s t : State) (p : Config.Params) (stream : List Byte) (h : MemoriesCanonical s)
    (hmove : launch p stream s = .next t) : MemoriesCanonical t := by
  unfold launch at hmove
  split_ifs at hmove
  refine memoriesCanonical_writeCtrl p 1 _ t ?_ hmove
  exact ⟨Memory.writeBytes_wf s.input 0 stream h.1, h.2⟩

/-- Settles O46: a step empties, extends or leaves a memory, and the host's moves write bytes in their place. -/
theorem memoriesStayCanonical : Obligations.MemoriesStayCanonical :=
  ⟨memoriesCanonical_step, memoriesCanonical_hostWrite, memoriesCanonical_hostWriteIn, memoriesCanonical_launch⟩

end Sys2Proof.Machine
end

section
/-! PROOF. The two round trips of the encoding (30_encoding.md R71 to R83) and the map of the opcode bytes they give (R80): an
opcode byte is a tag above the fields that the encoding puts together. -/

namespace Sys2Proof

/-! ### Numbers and their bytes -/

/-- The `n` low bytes of a number make what the number is below them. -/
theorem beNat_beBytes (n v : Nat) : beNat (beBytes n v) = v % 256 ^ n := by
  induction n with
  | zero => simp [beBytes, beNat, Nat.mod_one]
  | succ n ih =>
    rw [beBytes, beNat_cons, beBytes_length, ih, BitVec.toNat_ofNat, Nat.mod_pow_succ (b := 256)]
    ring

/-- The bytes of a word make the word. -/
theorem ofNat_beNat_beBytes (w n : Nat) (hw : 8 * n = w) (v : BitVec w) : BitVec.ofNat w (beNat (beBytes n v.toNat)) = v := by
  subst hw
  have hlt : v.toNat < 256 ^ n := v.isLt.trans_eq (pow_mul 2 8 n)
  rw [beNat_beBytes, Nat.mod_eq_of_lt hlt, BitVec.ofNat_toNat, BitVec.setWidth_eq]

/-! ### Opcode bytes and their fields -/

/-- The opcode form a tag stands for, where the byte is not one of the two whole-byte opcodes (30_encoding.md R79). -/
def tagKind (t : BitVec 2) : OpKind :=
  match t.toNat with
  | 0 => .index
  | 1 => .diff
  | 2 => .luma
  | _ => .run

/-- The tag decides the form, but for the two bytes above RUN's last (30_encoding.md R84). -/
theorem classify_tag_append (t : BitVec 2) (f : BitVec 6) (h : t = 0b11#2 → f.toNat ≤ 61) :
    classify (t ++ f) = .ok (tagKind t) := by
  revert t f
  decide

/-- Put side by side, the upper field counts in units of the lower one's range. -/
theorem toNat_append_eq_add {m n : Nat} (x : BitVec m) (y : BitVec n) : (x ++ y).toNat = x.toNat * 2 ^ n + y.toNat := by
  rw [BitVec.toNat_append, ← Nat.shiftLeft_add_eq_or_of_lt y.isLt, Nat.shiftLeft_eq]

/-- Any vector is two fields side by side. -/
theorem exists_append_eq (m n : Nat) (z : BitVec (m + n)) : ∃ (x : BitVec m) (y : BitVec n), x ++ y = z :=
  ⟨_, _, BitVec.extractLsb'_append_extractLsb'⟩

/-- A byte in the quarter of the byte map that a tag names is the tag above six bits. -/
theorem exists_tag_append_eq (t : BitVec 2) (b : Byte) (h : b.toNat / 64 = t.toNat) : ∃ f : BitVec 6, t ++ f = b := by
  obtain ⟨u, f, rfl⟩ := exists_append_eq 2 6 b
  rw [toNat_append_eq_add] at h
  obtain rfl : u = t := BitVec.eq_of_toNat_eq (by omega)
  exact ⟨f, rfl⟩

/-- Where a DIFF byte's three fields are read, they stand. -/
theorem extract_diff_fields (hi mid lo : BitVec 2) :
    (0b01#2 ++ (hi ++ mid ++ lo)).extractLsb' 4 2 = hi ∧ (0b01#2 ++ (hi ++ mid ++ lo)).extractLsb' 2 2 = mid ∧
      (0b01#2 ++ (hi ++ mid ++ lo)).extractLsb' 0 2 = lo := by
  revert hi mid lo
  decide

/-- Every layout puts the stored deltas into three fields from which it reads them back. -/
theorem diffFields_eq_append (lay : DiffLayout) (fr fg fb : BitVec 2) :
    ∃ hi mid lo, diffFields lay fr fg fb = hi ++ mid ++ lo ∧ diffOfFields lay hi mid lo = .diff fr fg fb := by
  cases lay <;> exact ⟨_, _, _, rfl, rfl⟩

/-! ### Reading an encoding -/

theorem decodeOpcode_index (lay : DiffLayout) (i : BitVec 6) (rest : List Byte) :
    decodeOpcode lay (0b00#2 ++ i) rest = .ok (.index i, rest) := by
  have hk : classify (0b00#2 ++ i) = .ok .index := classify_tag_append _ i nofun
  simp only [decodeOpcode, hk, BitVec.extractLsb'_append_eq_right]

theorem decodeOpcode_diff (lay : DiffLayout) (fr fg fb : BitVec 2) (rest : List Byte) :
    decodeOpcode lay (0b01#2 ++ diffFields lay fr fg fb) rest = .ok (.diff fr fg fb, rest) := by
  obtain ⟨hi, mid, lo, hfields, hdiff⟩ := diffFields_eq_append lay fr fg fb
  obtain ⟨hhi, hmid, hlo⟩ := extract_diff_fields hi mid lo
  have hk : classify (0b01#2 ++ (hi ++ mid ++ lo)) = .ok .diff := classify_tag_append _ _ nofun
  simp only [decodeOpcode, hfields, hk, hhi, hmid, hlo, hdiff]

theorem decodeOpcode_luma (lay : DiffLayout) (fdg : BitVec 6) (frg fbg : BitVec 4) (rest : List Byte) :
    decodeOpcode lay (0b10#2 ++ fdg) ((frg ++ fbg) :: rest) = .ok (.luma fdg frg fbg, rest) := by
  have hk : classify (0b10#2 ++ fdg) = .ok .luma := classify_tag_append _ fdg nofun
  simp only [decodeOpcode, hk, BitVec.extractLsb'_append_eq_right, BitVec.extractLsb'_append_eq_left]

theorem decodeOpcode_run (lay : DiffLayout) (n : BitVec 6) (rest : List Byte) (h : n.toNat ≤ 61) :
    decodeOpcode lay (0b11#2 ++ n) rest = .ok (.run n, rest) := by
  have hk : classify (0b11#2 ++ n) = .ok .run := classify_tag_append _ n (fun _ => h)
  simp only [decodeOpcode, hk, BitVec.extractLsb'_append_eq_right]

/-- Settles O1: a frame field's bytes make its number, and an opcode byte is classified and cut where it was put together. -/
theorem decodeOfEncode : Obligations.DecodeOfEncode := by
  intro lay i rest hw
  cases i with
  | magic m => exact congrArg (fun m => Except.ok (Instr.magic m, rest)) (ofNat_beNat_beBytes 32 4 rfl m)
  | width w => exact congrArg (fun w => Except.ok (Instr.width w, rest)) (ofNat_beNat_beBytes 32 4 rfl w)
  | height h => exact congrArg (fun h => Except.ok (Instr.height h, rest)) (ofNat_beNat_beBytes 32 4 rfl h)
  | endMark e => exact congrArg (fun e => Except.ok (Instr.endMark e, rest)) (ofNat_beNat_beBytes 64 8 rfl e)
  | channels | colorspace | rgb | rgba => rfl
  | index i => exact decodeOpcode_index lay i rest
  | diff fr fg fb => exact decodeOpcode_diff lay fr fg fb rest
  | luma fdg frg fbg => exact decodeOpcode_luma lay fdg frg fbg rest
  | run n => exact decodeOpcode_run lay n rest (of_decide_eq_true hw)

/-- Settles O2: the shape of what was read, and its bytes. -/
theorem encodeOfDecode : Obligations.EncodeOfDecode := by
  intro lay st bs rest i h
  obtain ⟨hstage, -, hw⟩ := decodeWith_shape lay st bs rest i h
  exact ⟨hw, hstage, encodeWith_of_decodeWith lay st bs rest i h⟩

/-! ### The byte map -/

/-- Settles O3: a byte of each range is the opcode byte of the encoding of its instruction, which reads back by the round
trip. -/
theorem opcodeByteMap : Obligations.OpcodeByteMap := by
  intro b p0 p1 p2 p3 rest
  refine ⟨fun h => ?index, fun h => ?diff, fun h => ?luma, fun h => ?run, fun h => ?rgb, fun h => ?rgba⟩
  case index =>
    obtain ⟨i, rfl⟩ := exists_tag_append_eq 0b00#2 b (show b.toNat / 64 = 0 by omega)
    have hb : (0b00#2 ++ i).toNat = 0 * 64 + i.toNat := toNat_append_eq_add _ _
    exact ⟨i, by omega, decodeOfEncode diffLayout (.index i) _ rfl⟩
  case diff =>
    obtain ⟨f, rfl⟩ := exists_tag_append_eq 0b01#2 b (show b.toNat / 64 = 1 by omega)
    obtain ⟨himid, lo, rfl⟩ := exists_append_eq 4 2 f
    obtain ⟨hi, mid, rfl⟩ := exists_append_eq 2 2 himid
    have hb : (0b01#2 ++ (hi ++ mid ++ lo)).toNat = 0x40 + hi.toNat * 16 + mid.toNat * 4 + lo.toNat := by
      simp only [toNat_append_eq_add, BitVec.toNat_ofNat]
      omega
    exact ⟨hi, mid, lo, hb, decodeOfEncode diffLayout (.diff hi mid lo) _ rfl⟩
  case luma =>
    obtain ⟨fdg, rfl⟩ := exists_tag_append_eq 0b10#2 b (show b.toNat / 64 = 2 by omega)
    obtain ⟨frg, fbg, rfl⟩ := exists_append_eq 4 4 p0
    exact ⟨fdg, frg, fbg, toNat_append_eq_add _ _, toNat_append_eq_add _ _,
      decodeOfEncode diffLayout (.luma fdg frg fbg) _ rfl⟩
  case run =>
    obtain ⟨n, rfl⟩ := exists_tag_append_eq 0b11#2 b (show b.toNat / 64 = 3 by omega)
    have hb : (0b11#2 ++ n).toNat = 0xC0 + n.toNat := toNat_append_eq_add _ _
    have hn : n.toNat ≤ 61 := by omega
    exact ⟨n, hb, hn, decodeOfEncode diffLayout (.run n) _ (decide_eq_true hn)⟩
  case rgb =>
    obtain rfl : b = 0xFE#8 := BitVec.eq_of_toNat_eq h
    exact decodeOfEncode diffLayout (.rgb p0 p1 p2) _ rfl
  case rgba =>
    obtain rfl : b = 0xFF#8 := BitVec.eq_of_toNat_eq h
    exact decodeOfEncode diffLayout (.rgba p0 p1 p2 p3) _ rfl

/-- Settles O4: the decoder run on twelve closed words. -/
theorem sampleWordsDecode : Obligations.SampleWordsDecode :=
  ⟨rfl, rfl, rfl, rfl, rfl, rfl, rfl, rfl, rfl, rfl, rfl, rfl⟩

end Sys2Proof
end

section
/-! PROOF. The header parser (40_header_parser.md R100 to R107): each field's meaning case by case, its step, and the verdict that
five steps lead to. -/

namespace Sys2Proof.Machine

open Sys2Proof.Safety

/-! ### The meanings, case by case -/

/-- Four bytes are the magic as a number exactly when they are its bytes. -/
theorem be32_eq_magicWord_iff (b0 b1 b2 b3 : Byte) :
    be32 b0 b1 b2 b3 = magicWord ↔ [b0, b1, b2, b3] = [0x71, 0x6F, 0x69, 0x66] := by
  constructor
  · intro h
    rw [← beBytes_be32 b0 b1 b2 b3, h]
    rfl
  · rintro ⟨⟩
    rfl

/-- `BE32` written out (20_memory.md R55): four bytes never overflow. -/
theorem toNat_be32 (b0 b1 b2 b3 : Byte) :
    (be32 b0 b1 b2 b3).toNat = b0.toNat * 2 ^ 24 + b1.toNat * 2 ^ 16 + b2.toNat * 2 ^ 8 + b3.toNat := by
  have hlt : beNat [b0, b1, b2, b3] < 256 ^ 4 := beNat_lt [b0, b1, b2, b3]
  rw [be32, BitVec.toNat_ofNat, Nat.mod_eq_of_lt (by omega)]
  simp only [beNat, List.foldl]
  omega

theorem exec_magic_of_eq (m : BitVec 32) (s : State) (h : m = magicWord) :
    exec (.magic m) s = .next { s with cur := s.cur + 4, stage := .width } := if_pos h

theorem exec_magic_of_ne (m : BitVec 32) (s : State) (h : m ≠ magicWord) :
    exec (.magic m) s = .next (raise .invalidMagic s) := if_neg h

theorem exec_channels_of_legal (c : Byte) (s : State) (h : c = 3#8 ∨ c = 4#8) :
    exec (.channels c) s = .next { s with channels := c, cur := s.cur + 1, stage := .colorspace } := if_pos h

theorem exec_channels_of_illegal (c : Byte) (s : State) (h : ¬(c = 3#8 ∨ c = 4#8)) :
    exec (.channels c) s = .next (raise .invalidChannelCount s) := if_neg h

theorem exec_colorspace_of_legal (v : Byte) (s : State) (h : v = 0#8 ∨ v = 1#8) :
    exec (.colorspace v) s = .next { s with
      colorspace := v, target := s.width.toNat * s.height.toNat * s.channels.toNat, cur := s.cur + 1, stage := .opcode } :=
  if_pos h

theorem exec_colorspace_of_illegal (v : Byte) (s : State) (h : ¬(v = 0#8 ∨ v = 1#8)) :
    exec (.colorspace v) s = .next (raise .invalidColorspace s) := if_neg h

/-- A check that fails gives the host its failure and stage (60_exceptions.md R211, R212). -/
theorem raises_raise (f : Failure) (s : State) : Raises s (raise f s) f := ⟨rfl, rfl, rfl, rfl⟩

/-! ### The steps -/

/-- The bytes of a frame field at the cursor run it: no loop test comes before them. -/
theorem step_of_frameField (s : State) (bs : List Byte) (i : Instr) (hi : i.stage = s.stage) (hop : i.stage ≠ .opcode)
    (hin : InputHas s s.cur bs) (hd : decode i.stage bs = .ok (i, [])) : step s = exec i s.dropStart :=
  stepRunsDecodedInstruction s bs i (busy_of_instr_stage s i hi) (fun h => absurd (hi.trans h) hop) hin (hi ▸ hd)

/-- Fewer bytes left than the stage fetches first are a short read, whatever they are (20_memory.md R53). -/
theorem step_of_short_firstFetch (s : State) (hrun : Running s) (ho : s.stage = .opcode → s.outLen < s.target)
    (h : s.inLen < s.cur + firstFetch s.stage) : step s = .next (raise .unexpectedEof s.dropStart) := by
  have hf : fetchInstr s = .raise .unexpectedEof := by simp only [fetchInstr, fetch, if_pos h]
  rw [step, nextAction_of_running s hrun ho, hf]

/-- The short read of a frame field: the stage of `i` needs more bytes than the stream has left. -/
theorem step_of_short_frameField (s : State) (i : Instr) (hi : i.stage = s.stage) (hop : i.stage ≠ .opcode)
    (h : s.inLen < s.cur + firstFetch i.stage) : step s = .next (raise .unexpectedEof s.dropStart) :=
  step_of_short_firstFetch s (busy_of_instr_stage s i hi) (fun ho => absurd (hi.trans ho) hop) (hi ▸ h)

/-- Settles O15: the word compared is the four bytes, and the step is the meaning or a short read. -/
theorem magicIsChecked : Obligations.MagicIsChecked := by
  refine ⟨fun _ => rfl, fun m s hm => ⟨_, exec_magic_of_ne m s hm, raises_raise _ s⟩, fun s hs hin => ?equal,
    fun s b0 b1 b2 b3 hs hin hne => ?unequal, fun s hs hlen => ?short⟩
  case equal => exact step_of_frameField s _ (.magic magicWord) hs.symm nofun hin rfl
  case unequal =>
    have hm : be32 b0 b1 b2 b3 ≠ magicWord := by
      rw [Ne, be32_eq_magicWord_iff]
      simpa using hne
    refine ⟨_, ?_, raises_raise_dropStart .invalidMagic s⟩
    rw [step_of_frameField s _ (.magic (be32 b0 b1 b2 b3)) hs.symm nofun hin rfl, exec_magic_of_ne _ _ hm]
  case short => exact ⟨_, step_of_short_frameField s (.magic 0) hs.symm nofun hlen, raises_raise_dropStart _ s⟩

/-- Settles O16: neither field has a check, so the step is the meaning on the bytes' big-endian number, or a short read. -/
theorem widthAndHeightAreBigEndian : Obligations.WidthAndHeightAreBigEndian := by
  refine ⟨fun _ _ => rfl, fun _ _ => rfl, fun s b0 b1 b2 b3 hin => ⟨fun hs => ?width, fun hs => ?height⟩,
    fun s hs hlen => ⟨_, ?short, raises_raise_dropStart .unexpectedEof s⟩⟩
  case width => exact ⟨_, toNat_be32 b0 b1 b2 b3, step_of_frameField s _ (.width _) hs.symm nofun hin rfl⟩
  case height => exact ⟨_, toNat_be32 b0 b1 b2 b3, step_of_frameField s _ (.height _) hs.symm nofun hin rfl⟩
  case short =>
    rcases hs with hs | hs
    · exact step_of_short_frameField s (.width 0) hs.symm nofun hlen
    · exact step_of_short_frameField s (.height 0) hs.symm nofun hlen

/-- Settles O17: the check is for the two legal counts, and the step is the meaning or a short read. -/
theorem channelCountIsChecked : Obligations.ChannelCountIsChecked :=
  ⟨fun c s hc => exec_channels_of_legal c s (by bv_omega),
    fun c s hc => ⟨_, exec_channels_of_illegal c s (by bv_omega), raises_raise _ s⟩,
    fun s c hs hin => step_of_frameField s [c] (.channels c) hs.symm nofun hin rfl,
    fun s hs hlen => ⟨_, step_of_short_frameField s (.channels 0) hs.symm nofun (Nat.lt_succ_of_le hlen),
      raises_raise_dropStart _ s⟩⟩

/-- Settles O18: the check is for the two legal tags, and the step is the meaning or a short read. -/
theorem colorspaceFormsTarget : Obligations.ColorspaceFormsTarget :=
  ⟨fun v s hv => exec_colorspace_of_legal v s (by bv_omega),
    fun v s hv => ⟨_, exec_colorspace_of_illegal v s (by bv_omega), raises_raise _ s⟩,
    fun s v hs hin => step_of_frameField s [v] (.colorspace v) hs.symm nofun hin rfl,
    fun s hs hlen => ⟨_, step_of_short_frameField s (.colorspace 0) hs.symm nofun (Nat.lt_succ_of_le hlen),
      raises_raise_dropStart _ s⟩⟩

/-! ### What a header stage leaves alone -/

/-- Only an opcode touches `PREV`, the history or the output, unless the instruction fails. -/
theorem execEffect_pixelState (i : Instr) (s t : State) (hi : i.stage ≠ .opcode) (ht : t.stage ≠ .failed)
    (he : ExecEffect s i t) : t.prev = s.prev ∧ t.hist = s.hist ∧ t.out = s.out ∧ t.outLen = s.outLen := by
  cases he with
  | failed => exact absurd rfl ht
  | committed _ _ hop => exact absurd hop hi
  | run => exact absurd rfl hi
  | _ => exact ⟨rfl, rfl, rfl, rfl⟩

/-- Settles O20: in the header stages every step that does not fail is an instruction, and none is an opcode. -/
theorem headerLeavesPixelState : Obligations.HeaderLeavesPixelState := by
  intro s t hstep h1 h5 ht
  have hrun : Running s := decide_eq_true ⟨h1, by omega⟩
  have hop : s.stage ≠ .opcode := fun h => by simp [h, stageCode] at h5
  rcases step_cases s t hstep with ⟨hq, _⟩ | ⟨hs, _⟩ | ⟨_, _, rfl⟩ | ⟨i, hi, _, _, _, _, hx⟩
  · exact absurd hrun (not_running_of_quiescent s hq)
  · exact absurd hs hop
  · exact absurd rfl ht
  · exact execEffect_pixelState i s.dropStart t (hi ▸ hop) ht (exec_effect i _ t hx)

/-! ### The verdict of a whole header -/

/-- At most `k` steps lead from `s` to a state with `P`. -/
def LeadsTo (k : Nat) (s : State) (P : State → Prop) : Prop :=
  ∃ (j : Nat) (t : State), j ≤ k ∧ Sys2Proof.core.run j s = .next t ∧ P t

theorem leadsTo_self (s : State) (P : State → Prop) (h : P s) : LeadsTo 0 s P := ⟨0, s, Nat.le_refl 0, rfl, h⟩

theorem leadsTo_of_step (k : Nat) (s u : State) (P : State → Prop) (hstep : step s = .next u) (h : LeadsTo k u P) :
    LeadsTo (k + 1) s P := by
  obtain ⟨j, t, hj, hrun, hP⟩ := h
  exact ⟨j + 1, t, Nat.succ_le_succ hj, (run_succ j s u hstep).trans hrun, hP⟩

/-- A step that fails is the last one. -/
theorem leadsTo_of_step_raise (k : Nat) (s : State) (f : Failure) (st : Stage) (hs : s.stage = st)
    (hstep : step s = .next (raise f s.dropStart)) : LeadsTo (k + 1) s fun t => t.result = some (.fail f st) :=
  ⟨1, _, Nat.succ_le_succ (Nat.zero_le k), run_succ 0 s _ hstep, hs ▸ rfl⟩

/-- One row of R106: its condition decides whether its own verdict or a later row's is reached. -/
theorem leadsTo_ite (k : Nat) (s : State) (c : Prop) [Decidable c] (P Q : State → Prop)
    (hP : c → LeadsTo k s P) (hQ : ¬c → LeadsTo k s Q) : LeadsTo k s fun t => if c then P t else Q t := by
  by_cases hc : c
  · simpa only [if_pos hc] using hP hc
  · simpa only [if_neg hc] using hQ hc

/-- The row of a field's check: a value that is not legal raises `f`, a legal one leads on to `u`. -/
theorem leadsTo_check (k : Nat) (s u : State) (f : Failure) (st : Stage) (ok : Prop) [Decidable ¬ok] (P : State → Prop)
    (hs : s.stage = st) (hbad : ¬ok → step s = .next (raise f s.dropStart)) (hok : ok → step s = .next u)
    (h : LeadsTo k u P) : LeadsTo (k + 1) s fun t => if ¬ok then t.result = some (.fail f st) else P t :=
  leadsTo_ite _ s _ _ _ (fun hc => leadsTo_of_step_raise k s f st hs (hbad hc))
    fun hc => leadsTo_of_step k s u P (hok (Classical.not_not.1 hc)) h

/-- The row of a field's fetch: the stream ends inside the field at offset `a`, or the field's meaning runs. -/
theorem leadsTo_frameField (k a : Nat) (s : State) (i : Instr) (P : State → Prop) (hi : i.stage = s.stage)
    (hop : i.stage ≠ .opcode) (ha : s.cur = a) (hd : decode i.stage (s.inBytes a (firstFetch i.stage)) = .ok (i, []))
    (h : step s = exec i s.dropStart → LeadsTo (k + 1) s P) :
    LeadsTo (k + 1) s fun t =>
      if s.inLen < a + firstFetch i.stage then t.result = some (.fail .unexpectedEof i.stage) else P t := by
  subst ha
  refine leadsTo_ite _ s _ _ _ (fun hlen => ?_) fun hlen => h ?_
  · exact leadsTo_of_step_raise k s _ _ hi.symm (step_of_short_frameField s i hi hop hlen)
  · exact step_of_frameField s _ i hi hop ⟨by simpa using hlen, by simp⟩ hd

/-- Settles O19: the rows of R106 in order, a fetch for each field and a check for each field that has one, each leading to the
next stage with the cursor behind the field. -/
theorem headerVerdict : Obligations.HeaderVerdict := by
  intro s hs hc
  refine leadsTo_frameField 4 0 s (.magic _) _ hs.symm nofun hc rfl fun hmagic => ?_
  refine leadsTo_check 4 s _ _ _ _ _ hs
    (fun hne => hmagic.trans (exec_magic_of_ne _ _ (mt (be32_eq_magicWord_iff _ _ _ _).1 hne)))
    (fun heq => hmagic.trans (exec_magic_of_eq _ _ ((be32_eq_magicWord_iff _ _ _ _).2 heq))) ?_
  have hc4 : s.cur + 4 = 4 := congrArg (· + 4) hc
  refine leadsTo_frameField 3 4 _ (.width _) _ rfl nofun hc4 rfl fun hwidth => leadsTo_of_step 3 _ _ _ hwidth ?_
  have hc8 : s.cur + 4 + 4 = 8 := congrArg (· + 4) hc4
  refine leadsTo_frameField 2 8 _ (.height _) _ rfl nofun hc8 rfl fun hheight => leadsTo_of_step 2 _ _ _ hheight ?_
  have hc12 : s.cur + 4 + 4 + 4 = 12 := congrArg (· + 4) hc8
  refine leadsTo_frameField 1 12 _ (.channels _) _ rfl nofun hc12 rfl fun hchannels => ?_
  refine leadsTo_check 1 _ _ _ _ _ _ rfl (fun hbad => hchannels.trans (exec_channels_of_illegal _ _ hbad))
    (fun hok => hchannels.trans (exec_channels_of_legal _ _ hok)) ?_
  have hc13 : s.cur + 4 + 4 + 4 + 1 = 13 := congrArg (· + 1) hc12
  refine leadsTo_frameField 0 13 _ (.colorspace _) _ rfl nofun hc13 rfl fun hcolorspace => ?_
  refine leadsTo_check 0 _ _ _ _ _ _ rfl (fun hbad => hcolorspace.trans (exec_colorspace_of_illegal _ _ hbad))
    (fun hok => hcolorspace.trans (exec_colorspace_of_legal _ _ hok)) ?_
  exact leadsTo_self _ _ ⟨rfl, congrArg (· + 1) hc13⟩

end Sys2Proof.Machine
end

section
/-! PROOF. The literal opcodes RGB and RGBA (41_ops_literal.md R120, R121), from three facts about every opcode: what a commit
does, that the encoding at the cursor runs the opcode, and that a payload cut short is a short read. -/

namespace Sys2Proof.Machine

open Sys2Proof.Safety

/-! ### What a commit does -/

/-- `State.append` appends, and disturbs no other offset (46_output_controller.md R170). -/
theorem appends_append (s : State) (bs : List Byte) : Appends s (s.append bs) bs := by
  refine ⟨rfl, fun k b hk => ?_, fun a ha => ?_⟩
  · have hlt : k < bs.length := (List.getElem?_eq_some_iff.1 hk).1
    rw [append_read, if_pos (by omega), Nat.add_sub_cancel_left, hk]
  · rw [append_read, if_neg (by omega)]

/-- The common post-processing behind an opcode of `n` bytes (45_history_cache.md R165). -/
theorem committed_commit (s : State) (n : Nat) (p : Pixel) : Committed s (commit p (s.advance n)) n p := by
  refine ⟨rfl, rfl, fun i => ?_, appends_append ((s.advance n).remember p) (pixelBytes s.channels p), rfl⟩
  simp only [commit_slot, Fin.ext_iff, pixelHash, State.advance_hist]

/-! ### The step of an opcode -/

theorem running_of_opcodeReady (s : State) (h : OpcodeReady s) : Running s := by
  simp [Running, State.busy, h.1, stageCode]

/-- With pixels owed, the encoding of an opcode at the cursor runs it. -/
theorem step_of_opcode (s : State) (i : Instr) (hready : OpcodeReady s) (hi : i.stage = .opcode) (hw : i.wellFormed = true)
    (hin : InputHas s s.cur (encode i)) : step s = exec i s.dropStart := by
  have hd : decode i.stage (encode i) = .ok (i, []) := by
    simpa [decode, encode] using decodeOfEncode diffLayout i [] hw
  rw [hi, ← hready.1] at hd
  exact stepRunsDecodedInstruction s _ i (running_of_opcodeReady s hready) (fun _ => hready.2) hin hd

/-- The second fetch of a stage is a short read where the stream ends inside the payload (20_memory.md R53). -/
theorem fetchInstr_of_short_payload (s : State) (first : List Byte) (hfirst : first.length = firstFetch s.stage)
    (hin : InputHas s s.cur first) (hend : s.inLen < s.cur + first.length + payloadLength s.stage first) :
    fetchInstr s = .raise .unexpectedEof := by
  have h1 : fetch s s.cur (firstFetch s.stage) = some first := hfirst ▸ fetch_of_inputHas s s.cur first hin
  have h2 : fetch s (s.cur + first.length) (payloadLength s.stage first) = none := if_pos hend
  simp only [fetchInstr, h1, h2]

/-- With pixels owed, an opcode byte whose payload is cut short raises `UnexpectedEof` (60_exceptions.md R202). -/
theorem step_raises_of_short_payload (s : State) (b : Byte) (hready : OpcodeReady s) (hin : InputHas s s.cur [b])
    (hend : s.inLen < s.cur + 1 + payloadLength .opcode [b]) : ∃ t, step s = .next t ∧ Raises s t .unexpectedEof := by
  have hfirst : [b].length = firstFetch s.stage := by rw [hready.1]; rfl
  have hf := fetchInstr_of_short_payload s [b] hfirst hin (by rwa [hready.1])
  refine ⟨raise .unexpectedEof s.dropStart, ?_, raises_raise_dropStart _ s⟩
  rw [step, nextAction_of_running s (running_of_opcodeReady s hready) (fun _ => hready.2), hf]

/-- Settles O22: RGB commits its payload with the alpha of `PREV`; `FE` asks for three payload bytes. -/
theorem rgbKeepsAlpha : Obligations.RgbKeepsAlpha :=
  ⟨fun r g b s => ⟨_, rfl, committed_commit s 4 ⟨r, g, b, s.prev.a⟩⟩,
    fun r g b s hready hin => step_of_opcode s (.rgb r g b) hready rfl rfl hin,
    fun s hready hin hend => step_raises_of_short_payload s 0xFE hready hin hend⟩

/-- Settles O23: RGBA commits its payload; `FF` asks for four payload bytes. -/
theorem rgbaTakesAllChannels : Obligations.RgbaTakesAllChannels :=
  ⟨fun r g b a s => ⟨_, rfl, committed_commit s 5 ⟨r, g, b, a⟩⟩,
    fun r g b a s hready hin => step_of_opcode s (.rgba r g b a) hready rfl rfl hin,
    fun s hready hin hend => step_raises_of_short_payload s 0xFF hready hin hend⟩

/-! ### Where an alpha comes from -/

/-- Every slot that INDEX can name exists (42_op_index.md R130). -/
theorem getElem?_slotOf (s : State) (k : BitVec 6) : s.hist[k.toNat]? = some (s.slot (slotOf k)) :=
  Vector.getElem?_eq_getElem k.isLt

/-- Settles O32: RGB, DIFF, LUMA and RUN copy the alpha of `PREV`; RGBA brings its own, and INDEX the whole pixel of its slot. -/
theorem alphaOnlyFromRgbaOrHistory : Obligations.AlphaOnlyFromRgbaOrHistory := by
  intro i s t hi h hne
  cases i with
  | magic | width | height | channels | colorspace | endMark => cases hi
  | rgb | diff | luma => cases h; exact absurd rfl hne
  | run n =>
    cases h
    exact absurd (congrArg Pixel.a (emitN_prev s.prev (runLength n) (s.advance 1))) hne
  | rgba r g b a => cases h; exact .inl ⟨r, g, b, rfl⟩
  | index k => cases h; exact .inr ⟨k, rfl, getElem?_slotOf s k⟩

end Sys2Proof.Machine
end

section
/-! PROOF. INDEX (42_op_index.md R130): the pixel of a slot, committed. Where the slot holds `PREV` already, the commit's write
changes nothing (45_history_cache.md R166), and what is left is a run of one pixel. -/

namespace Sys2Proof.Machine

open Sys2Proof.Safety

/-- The tag of INDEX is 00, so its opcode byte is the index itself (30_encoding.md R73). -/
theorem encode_index (i : BitVec 6) (b : Byte) (h : b.toNat = i.toNat) : encode (.index i) = [b] := by
  have hb : 0b00#2 ++ i = b := BitVec.eq_of_toNat_eq (by rw [toNat_append_eq_add, h]; simp)
  exact congrArg ([·]) hb

/-- The slot INDEX reads, as the statements look it up (42_op_index.md R130). -/
theorem slot_of_getElem? (s : State) (i : BitVec 6) (p : Pixel) (h : s.hist[i.toNat]? = some p) : s.slot (slotOf i) = p :=
  Option.some.inj ((getElem?_slotOf s i).symm.trans h)

/-- Settles O24: every index names a slot, whose pixel is committed; the byte that equals the index is its encoding. -/
theorem indexTakesSlot : Obligations.IndexTakesSlot := by
  refine ⟨fun i s => ⟨_, rfl, fun p hp => ?_⟩, fun i b s hb hready hin => ?_⟩
  · obtain rfl := slot_of_getElem? s i p hp
    exact committed_commit s 1 (s.slot (slotOf i))
  · rw [← encode_index i b hb] at hin
    exact step_of_opcode s (.index i) hready rfl rfl hin

/-- To remember the previous pixel again changes nothing where its slot holds it (45_history_cache.md R166). -/
theorem remember_prev_of_slot (s : State) (h : s.slot (pixelHash s.prev) = s.prev) : s.remember s.prev = s := by
  have hset : s.hist.set (pixelHash s.prev).val s.prev (pixelHash s.prev).isLt = s.hist :=
    (congrArg (s.hist.set _ · (pixelHash s.prev).isLt) h.symm).trans (Vector.set_getElem_self _)
  exact congrArg (fun hist => { s with hist }) hset

/-- Settles O33: the slot's pixel is `PREV`, so INDEX remembers nothing new and emits what a run of one emits. -/
theorem indexOfPreviousIsRunOfOne : Obligations.IndexOfPreviousIsRunOfOne := by
  intro s i hi hslot
  have hp : s.slot (slotOf i) = s.prev := slot_of_getElem? s i s.prev hslot
  have hhash : slotOf i = pixelHash s.prev := Fin.ext hi
  have hsame : (s.advance 1).remember s.prev = s.advance 1 := remember_prev_of_slot (s.advance 1) (hhash ▸ hp)
  calc exec (.index i) s = .next (commit (s.slot (slotOf i)) (s.advance 1)) := rfl
    _ = .next (emit s.prev ((s.advance 1).remember s.prev)) := by rw [hp, commit]
    _ = .next (emit s.prev (s.advance 1)) := by rw [hsame]
    _ = exec (.run 0) s := rfl

end Sys2Proof.Machine
end

section
/-! PROOF. The predictor opcodes DIFF and LUMA (43_ops_delta.md R140, R141). A channel shifted by a delta is the one byte with that
sum modulo 256, so a pixel that the deltas describe is the pixel they make; and a stored field in range holds its delta and the
bias (30_encoding.md R78). -/

namespace Sys2Proof.Machine

open Sys2Proof.Safety

/-! ### A channel and a delta -/

/-- The sum is reduced once, modulo 256 (43_ops_delta.md R141 (a)). -/
theorem toNat_add8 (c : Byte) (d : Int) : ((add8 c d).toNat : Int) = ((c.toNat : Int) + d) % 256 := by
  rw [add8, BitVec.toNat_ofInt, Int.toNat_of_nonneg (Int.emod_nonneg _ (by decide))]
  rfl

/-- A byte with the sum's value is the sum. -/
theorem eq_add8_of_toNat (x c : Byte) (d : Int) (h : (x.toNat : Int) = ((c.toNat : Int) + d) % 256) : x = add8 c d :=
  BitVec.eq_of_toNat_eq (Int.ofNat_inj.1 (h.trans (toNat_add8 c d).symm))

/-- The pixel that three deltas describe is the pixel they make. -/
theorem eq_shift_of_toNat (p q : Pixel) (dr dg db : Int) (hr : (p.r.toNat : Int) = (q.r.toNat + dr) % 256)
    (hg : (p.g.toNat : Int) = (q.g.toNat + dg) % 256) (hb : (p.b.toNat : Int) = (q.b.toNat + db) % 256) (ha : p.a = q.a) :
    p = q.shift dr dg db := by
  cases p
  simp only [Pixel.shift, Pixel.mk.injEq]
  exact ⟨eq_add8_of_toNat _ _ _ hr, eq_add8_of_toNat _ _ _ hg, eq_add8_of_toNat _ _ _ hb, ha⟩

/-! ### The opcode bytes -/

/-- DIFF's opcode byte by the value of its fields (30_encoding.md R73, D5; log 11). -/
theorem encode_diff (fr fg fb : BitVec 2) (b : Byte) (h : b.toNat = 0x40 + fr.toNat * 16 + fg.toNat * 4 + fb.toNat) :
    encode (.diff fr fg fb) = [b] := by
  have hb : 0b01#2 ++ (fr ++ fg ++ fb) = b := BitVec.eq_of_toNat_eq (by
    simp only [toNat_append_eq_add, BitVec.toNat_ofNat]
    omega)
  exact congrArg ([·]) hb

/-- LUMA's two bytes by the values of their fields (30_encoding.md R74). -/
theorem encode_luma (fdg : BitVec 6) (frg fbg : BitVec 4) (b b2 : Byte) (h : b.toNat = 0x80 + fdg.toNat)
    (h2 : b2.toNat = frg.toNat * 16 + fbg.toNat) : encode (.luma fdg frg fbg) = [b, b2] := by
  have hb : 0b10#2 ++ fdg = b := BitVec.eq_of_toNat_eq ((toNat_append_eq_add _ _).trans h.symm)
  have hb2 : frg ++ fbg = b2 := BitVec.eq_of_toNat_eq ((toNat_append_eq_add _ _).trans h2.symm)
  exact congrArg₂ ([·, ·]) hb hb2

/-- Every opcode byte of LUMA asks for one payload byte (30_encoding.md R82). -/
theorem payloadLength_of_luma_byte (b : Byte) (hlo : 0x80 ≤ b.toNat) (hhi : b.toNat ≤ 0xBF) :
    payloadLength .opcode [b] = 1 := by
  obtain ⟨fdg, rfl⟩ := exists_tag_append_eq 0b10#2 b (show b.toNat / 64 = 2 by omega)
  obtain ⟨-, hsum⟩ := fetchLength (.luma fdg 0 0) rfl
  exact Nat.add_left_cancel hsum

/-- Settles O25: DIFF commits the shifted pixel, whose channels are the sums; the byte is its encoding. -/
theorem diffWrapsModulo256 : Obligations.DiffWrapsModulo256 := by
  refine ⟨fun fr fg fb s => ?commits, fun fr fg fb b s hb hready hin => ?runs⟩
  case commits =>
    exact ⟨_, s.prev.shift (diffDelta fr) (diffDelta fg) (diffDelta fb), rfl, committed_commit s 1 _,
      toNat_add8 s.prev.r (diffDelta fr), toNat_add8 s.prev.g (diffDelta fg), toNat_add8 s.prev.b (diffDelta fb), rfl⟩
  case runs =>
    rw [← encode_diff fr fg fb b hb] at hin
    exact step_of_opcode s (.diff fr fg fb) hready rfl rfl hin

/-- Settles O26: LUMA commits the shifted pixel, whose channels are the sums; the two bytes are its encoding, and the opcode
byte alone asks for the payload byte that is missing. -/
theorem lumaWrapsModulo256 : Obligations.LumaWrapsModulo256 := by
  refine ⟨fun fdg frg fbg s => ?commits, fun fdg frg fbg b b2 s hb hb2 hready hin => ?runs,
    fun s b hready hlo hhi hin hlen => ?short⟩
  case commits =>
    exact ⟨_, s.prev.shift (lumaOther fdg frg) (lumaGreen fdg) (lumaOther fdg fbg), rfl, committed_commit s 2 _,
      toNat_add8 s.prev.r (lumaOther fdg frg), toNat_add8 s.prev.g (lumaGreen fdg), toNat_add8 s.prev.b (lumaOther fdg fbg), rfl⟩
  case runs =>
    rw [← encode_luma fdg frg fbg b b2 hb hb2] at hin
    exact step_of_opcode s (.luma fdg frg fbg) hready rfl rfl hin
  case short =>
    have hpayload : payloadLength .opcode [b] = 1 := payloadLength_of_luma_byte b hlo hhi
    exact step_raises_of_short_payload s b hready hin (by omega)

/-! ### From a delta to its field and back -/

/-- A delta in range has a stored field, which holds the delta and the bias. -/
theorem biased_of_range (w bias : Nat) (d : Int) (hlo : 0 ≤ d + bias) (hhi : d + bias < 2 ^ w) :
    ∃ f, biased w bias d = some f ∧ (f.toNat : Int) = d + bias := by
  refine ⟨_, if_pos ⟨hlo, hhi⟩, ?_⟩
  rw [BitVec.toNat_ofNat, Int.natCast_mod, Int.toNat_of_nonneg hlo]
  exact Int.emod_eq_of_lt hlo (by exact_mod_cast hhi)

/-- Deltas of -2 to 1 assemble, and DIFF takes them out of the fields again (30_encoding.md R78, R86). -/
theorem asmDiff_of_range (dr dg db : Int) (hr : -2 ≤ dr ∧ dr ≤ 1) (hg : -2 ≤ dg ∧ dg ≤ 1) (hb : -2 ≤ db ∧ db ≤ 1) :
    ∃ fr fg fb, asmDiff dr dg db = some (.diff fr fg fb) ∧ diffDelta fr = dr ∧ diffDelta fg = dg ∧ diffDelta fb = db := by
  obtain ⟨fr, hfr, hdr⟩ := biased_of_range 2 2 dr (by omega) (by omega)
  obtain ⟨fg, hfg, hdg⟩ := biased_of_range 2 2 dg (by omega) (by omega)
  obtain ⟨fb, hfb, hdb⟩ := biased_of_range 2 2 db (by omega) (by omega)
  refine ⟨fr, fg, fb, by simp [asmDiff, hfr, hfg, hfb], ?_⟩
  simp only [diffDelta]
  omega

/-- A green delta of -32 to 31 and distances from it of -8 to 7 assemble, and LUMA takes the three deltas out of the fields
again (30_encoding.md R78, R86). -/
theorem asmLuma_of_range (dr dg db : Int) (hg : -32 ≤ dg ∧ dg ≤ 31) (hr : -8 ≤ dr - dg ∧ dr - dg ≤ 7)
    (hb : -8 ≤ db - dg ∧ db - dg ≤ 7) :
    ∃ fdg frg fbg, asmLuma dg (dr - dg) (db - dg) = some (.luma fdg frg fbg) ∧
      lumaOther fdg frg = dr ∧ lumaGreen fdg = dg ∧ lumaOther fdg fbg = db := by
  obtain ⟨fdg, hfdg, hdg⟩ := biased_of_range 6 32 dg (by omega) (by omega)
  obtain ⟨frg, hfrg, hdr⟩ := biased_of_range 4 8 (dr - dg) (by omega) (by omega)
  obtain ⟨fbg, hfbg, hdb⟩ := biased_of_range 4 8 (db - dg) (by omega) (by omega)
  refine ⟨fdg, frg, fbg, by simp [asmLuma, hfdg, hfrg, hfbg], ?_⟩
  simp only [lumaOther, lumaGreen]
  omega

/-- Settles O28: DIFF shifts `PREV` by the very deltas assembled, and they describe the pixel. -/
theorem diffRoundTrip : Obligations.DiffRoundTrip := by
  intro s p dr dg db hr hr' hg hg' hb hb' hpr hpg hpb hpa
  obtain ⟨fr, fg, fb, hasm, rfl, rfl, rfl⟩ := asmDiff_of_range dr dg db ⟨hr, hr'⟩ ⟨hg, hg'⟩ ⟨hb, hb'⟩
  have hp : p = s.prev.shift (diffDelta fr) (diffDelta fg) (diffDelta fb) := eq_shift_of_toNat _ _ _ _ _ hpr hpg hpb hpa
  exact ⟨_, _, hasm, rfl, hp.symm⟩

/-- Settles O29: LUMA shifts `PREV` by the very deltas assembled, and they describe the pixel. -/
theorem lumaRoundTrip : Obligations.LumaRoundTrip := by
  intro s p dr dg db hg hg' hr hr' hb hb' hpr hpg hpb hpa
  obtain ⟨fdg, frg, fbg, hasm, rfl, rfl, rfl⟩ := asmLuma_of_range dr dg db ⟨hg, hg'⟩ ⟨hr, hr'⟩ ⟨hb, hb'⟩
  have hp : p = s.prev.shift (lumaOther fdg frg) (lumaGreen fdg) (lumaOther fdg fbg) :=
    eq_shift_of_toNat _ _ _ _ _ hpr hpg hpb hpa
  exact ⟨_, _, hasm, rfl, hp.symm⟩

end Sys2Proof.Machine
end

section
/-! PROOF. RUN (44_op_run.md R150): behind its one byte, a single append of `n + 1` copies of the previous pixel. -/

namespace Sys2Proof.Machine

open Sys2Proof.Safety

/-- RUN's opcode byte by the value of its field (30_encoding.md R73). -/
theorem encode_run (n : BitVec 6) (b : Byte) (h : b.toNat = 0xC0 + n.toNat) : encode (.run n) = [b] := by
  have hb : 0b11#2 ++ n = b := BitVec.eq_of_toNat_eq ((toNat_append_eq_add _ _).trans h.symm)
  exact congrArg ([·]) hb

/-- RUN's emissions, one behind the other, are one append (44_op_run.md R150, 46_output_controller.md R170). -/
theorem exec_run_eq_append (n : BitVec 6) (s : State) :
    exec (.run n) s = .next ((s.advance 1).append (List.replicate (n.toNat + 1) (pixelBytes s.channels s.prev)).flatten) :=
  congrArg Host.Outcome.next (emitN_eq_append s.prev (runLength n) (s.advance 1))

/-- Settles O27: an append moves `OUT` and `OUT_LEN` alone, behind the cursor's one byte; the byte is RUN's encoding. -/
theorem runRepeatsPrevious : Obligations.RunRepeatsPrevious := by
  refine ⟨fun n s => ?appends, fun n b s hn hb hready hin => ?runs⟩
  case appends => exact ⟨_, exec_run_eq_append n s, rfl, appends_append (s.advance 1) _, rfl⟩
  case runs =>
    rw [← encode_run n b hb] at hin
    exact step_of_opcode s (.run n) hready rfl (decide_eq_true hn) hin

end Sys2Proof.Machine
end

section
/-! PROOF. The hash and the history cache (45_history_cache.md R160 to R166): the slot of a pixel modulo 64, the one slot that an
opcode writes, and the invariant of the history over one step. -/

namespace Sys2Proof.Machine

open Sys2Proof.Safety

/-! ### The hash -/

/-- A multiple of 64 is wide enough for the hash's arithmetic: to reduce its terms and their sum changes nothing modulo 64. -/
theorem reduced_sum_mod_64 (m a b c d : Nat) (hm : 64 ∣ m) :
    (a % m + b % m + c % m + d % m) % m % 64 = (a + b + c + d) % 64 := by
  have hterm : ∀ x, x % m ≡ x [MOD 64] := fun x => Nat.mod_mod_of_dvd x hm
  exact (hterm _).trans ((((hterm a).add (hterm b)).add (hterm c)).add (hterm d))

/-- Settles O30: `2 ^ k` is a multiple of 64 from 6 bits on, and a channel's bits above 5 are a multiple of 64 too. -/
theorem hashIndependentOfWidth : Obligations.HashIndependentOfWidth := by
  refine fun p => ⟨fun k hk => ?width, ?lowBits⟩
  case width => exact (reduced_sum_mod_64 (2 ^ k) _ _ _ _ (pow_dvd_pow 2 hk)).symm
  case lowBits =>
    simp only [pixelHash]
    omega

/-! ### What an opcode writes -/

/-- Every opcode but RUN ends in a commit (45_history_cache.md R165). -/
theorem exec_opcode_eq_commit (i : Instr) (s t : State) (hi : i.stage = .opcode) (hrun : ∀ n, i ≠ .run n)
    (h : exec i s = .next t) : ∃ p, t = commit p (s.advance i.length) := by
  rcases exec_opcode_shape i s t hi h with hcommit | ⟨n, hn, -⟩
  · exact hcommit
  · exact absurd hn (hrun n)

/-- Settles O31: RUN appends to the output alone, and every other opcode's commit writes the slot of its pixel's hash. -/
theorem historyWritesOneSlot : Obligations.HistoryWritesOneSlot := by
  intro i s t hi h
  by_cases hrun : ∀ n, i ≠ .run n
  · obtain ⟨p, rfl⟩ := exec_opcode_eq_commit i s t hi hrun h
    refine ⟨fun j => ?_, fun _ => by rw [commit_prev, commit_slot, if_pos rfl]⟩
    rw [commit_prev, commit_slot]
    split_ifs with hj
    · exact .inr ⟨hj, rfl, hrun⟩
    · exact .inl rfl
  · obtain ⟨n, rfl⟩ := not_forall_not.1 hrun
    obtain rfl := Host.Outcome.next.inj ((exec_run_eq_append n s).symm.trans h)
    exact ⟨fun _ => .inl rfl, fun hne => absurd rfl (hne n)⟩

/-! ### The invariant -/

/-- An instruction that commits remembers its pixel; every other one leaves `PREV` and the history, a failed check by log 6. -/
theorem execEffect_historyCoherent (i : Instr) (s t : State) (h : HistoryCoherent s) (he : ExecEffect s i t) :
    HistoryCoherent t := by
  cases he with
  | committed _ p => exact historyCoherent_remember (s.advance i.length) p h
  | failed | magic | width | height | channels | colorspace | run | endMark => exact h

/-- Settles O41: the decode reset seeds the history, an instruction keeps the invariant, and the end of the loop and a short
read leave `PREV` and the history. -/
theorem historyInvariant : Obligations.HistoryInvariant := by
  refine ⟨historyCoherent_decodeReset, fun s t h hstep => ?_⟩
  rcases step_cases s t hstep with ⟨_, _, rfl⟩ | ⟨_, _, rfl⟩ | ⟨_, _, rfl⟩ | ⟨i, _, _, _, _, _, hx⟩
  · exact historyCoherent_decodeReset s
  · exact h
  · exact h
  · exact execEffect_historyCoherent i s.dropStart t h (exec_effect i _ t hx)

end Sys2Proof.Machine
end

section
/-! PROOF. The opcode loop (46_output_controller.md R172): its end, its short read, and an opcode of it. -/

namespace Sys2Proof.Machine

open Sys2Proof.Safety

/-- Nothing is owed: the step leaves the loop without a fetch. -/
theorem step_of_target_reached (s : State) (hs : s.stage = .opcode) (h : s.target ≤ s.outLen) :
    step s = .next { s with stage := .endMark, ctrlStart := false } := by
  have ha : nextAction s = .loopEnd := by simp only [nextAction, hs, opcodeAction, if_pos h]
  rw [step, ha]
  rfl

/-- An opcode leaves the stage and the target as they were. -/
theorem exec_opcode_stage_target (i : Instr) (s t : State) (hi : i.stage = .opcode) (h : exec i s = .next t) :
    t.stage = s.stage ∧ t.target = s.target := by
  rcases exec_opcode_shape i s t hi h with ⟨p, rfl⟩ | ⟨n, _, rfl⟩ <;> exact ⟨rfl, rfl⟩

/-- Settles O6: the loop test comes first, then the fetch of the opcode byte, then the opcode, which stays in the loop. -/
theorem opcodeStageStep : Obligations.OpcodeStageStep := by
  refine fun s hs => ⟨step_of_target_reached s hs, fun ho hend => ?short, fun ho i hi hw hin => ?runs⟩
  case short =>
    have hlen : s.inLen < s.cur + firstFetch s.stage := by rw [hs]; exact Nat.lt_succ_of_le hend
    exact ⟨_, step_of_short_firstFetch s (running_of_opcodeReady s ⟨hs, ho⟩) (fun _ => ho) hlen, raises_raise_dropStart _ s⟩
  case runs =>
    obtain ⟨t, ht⟩ := exec_next i s.dropStart
    exact ⟨t, ht, (step_of_opcode s i ⟨hs, ho⟩ hi hw hin).trans ht, (exec_opcode_stage_target i _ t hi ht).1.trans hs⟩

end Sys2Proof.Machine
end

section
/-! PROOF. The end marker (46_output_controller.md R175 to R178): eight bytes compared as one number, and the shortest stream
that reaches it, the one of an image without pixels. -/

namespace Sys2Proof.Machine

open Sys2Proof.Safety

/-- Eight bytes in `S_ENDMARK` are END, whatever they are (30_encoding.md R77). -/
theorem decode_endMark (bs : List Byte) (h : bs.length = 8) :
    decode .endMark bs = .ok (.endMark (BitVec.ofNat 64 (beNat bs)), []) := by
  match bs, h with
  | [_, _, _, _, _, _, _, _], _ => rfl

/-- Eight bytes that make the marker's number are the marker's bytes. -/
theorem eq_marker_of_beNat (bs : List Byte) (h : bs.length = 8) (he : BitVec.ofNat 64 (beNat bs) = endWord) :
    bs = [0, 0, 0, 0, 0, 0, 0, 1] := by
  have hbytes := beBytes_ofNat_beNat 64 bs (congrArg (8 * ·) h)
  rw [he, h] at hbytes
  exact hbytes.symm

theorem exec_endMark_of_ne (e : BitVec 64) (s : State) (h : e ≠ endWord) :
    exec (.endMark e) s = .next (raise .invalidEndMarker s) := if_neg h

/-- The marker at the cursor ends the decode. -/
theorem step_of_marker (s : State) (hs : s.stage = .endMark) (hin : InputHas s s.cur [0, 0, 0, 0, 0, 0, 0, 1]) :
    step s = .next { s with cur := s.cur + 8, stage := .done, ctrlStart := false } :=
  step_of_frameField s _ (.endMark endWord) hs.symm nofun hin rfl

/-- Settles O34: the word compared is the eight bytes, and the step is the meaning or a short read. -/
theorem endMarkIsChecked : Obligations.EndMarkIsChecked := by
  refine ⟨fun _ => rfl, fun e s he => ⟨_, exec_endMark_of_ne e s he, raises_raise _ s⟩, step_of_marker,
    fun s bs hs h8 hin hne => ?unequal, fun s hs hlen => ?short⟩
  case unequal =>
    have he : BitVec.ofNat 64 (beNat bs) ≠ endWord := fun he => hne (eq_marker_of_beNat bs h8 he)
    refine ⟨_, ?_, raises_raise_dropStart .invalidEndMarker s⟩
    rw [step_of_frameField s bs (.endMark _) hs.symm nofun hin (decode_endMark bs h8), exec_endMark_of_ne _ _ he]
  case short => exact ⟨_, step_of_short_frameField s (.endMark 0) hs.symm nofun hlen, raises_raise_dropStart _ s⟩

/-- Settles O35: the colorspace forms a `TARGET` of 0, so the loop ends at once, and the marker lies behind the tag. -/
theorem zeroPixelImageSucceeds : Obligations.ZeroPixelImageSucceeds := by
  intro s v hs hout hzero hv hin
  have hnone : s.width.toNat * s.height.toNat * s.channels.toNat ≤ s.outLen := by
    rcases hzero with h | h <;> simp [h]
  have htag := inputHas_of_append s s.cur [v] _ hin
  have hcolorspace := (step_of_frameField s [v] (.colorspace v) hs.symm nofun htag rfl).trans
    (exec_colorspace_of_legal v s.dropStart hv)
  have hmarker := inputHas_of_append_right s s.cur [v] _ hin
  refine ⟨_, (run_succ 2 _ _ hcolorspace).trans ((run_succ 1 _ _ (step_of_target_reached _ rfl hnone)).trans
    (run_succ 0 _ _ (step_of_marker _ rfl hmarker))), rfl, rfl, ?_⟩
  simp [State.result, State.outBytes, hout, Memory.readBytes]

end Sys2Proof.Machine
end

section
/-! PROOF. The output (46_output_controller.md R170 to R173, R180): every step that does not fail appends, and what an opcode
appends is whole pixels, more than one only for a RUN. -/

namespace Sys2Proof.Machine

open Sys2Proof.Safety

/-! ### Appending -/

/-- Where the output has not moved, nothing was appended. -/
theorem appends_nil (s t : State) (hout : t.out = s.out) (hlen : t.outLen = s.outLen) : Appends s t [] :=
  ⟨hlen, nofun, fun _ _ => by rw [hout]⟩

/-- An instruction that does not fail appends: an opcode its pixels, a frame instruction nothing. -/
theorem execEffect_appends (i : Instr) (s t : State) (ht : t.stage ≠ .failed) (he : ExecEffect s i t) :
    ∃ bs, Appends s t bs := by
  cases he with
  | failed => exact absurd rfl ht
  | committed _ p => exact ⟨_, appends_append ((s.advance i.length).remember p) _⟩
  | run n => exact ⟨_, appends_append (s.advance 1) _⟩
  | magic | width | height | channels | colorspace | endMark => exact ⟨[], appends_nil s _ rfl rfl⟩

/-- A step of a running stage that does not fail appends; the end of the loop appends nothing. -/
theorem step_appends (s t : State) (hrun : Running s) (hstep : step s = .next t) (ht : t.stage ≠ .failed) :
    ∃ bs, Appends s t bs := by
  rcases step_cases s t hstep with ⟨hq, _⟩ | ⟨_, _, rfl⟩ | ⟨_, _, rfl⟩ | ⟨i, _, _, _, _, _, hx⟩
  · exact absurd hrun (not_running_of_quiescent s hq)
  · exact ⟨[], appends_nil s _ rfl rfl⟩
  · exact absurd rfl ht
  · exact execEffect_appends i s.dropStart t ht (exec_effect i _ t hx)

/-- Settles O13: an append begins at the old end of the output. -/
theorem outputAppendOnly : Obligations.OutputAppendOnly := by
  intro s t hrun hstep ht
  obtain ⟨bs, hlen, -, hrest⟩ := step_appends s t hrun hstep ht
  exact ⟨hlen ▸ Nat.le_add_right _ _, fun a ha => hrest a (.inl ha)⟩

/-! ### How much an opcode appends -/

/-- An opcode appends one pixel, or as many as its run is long; all pixels of an image are of one size. -/
theorem exec_opcode_outLen (i : Instr) (s t : State) (hi : i.stage = .opcode) (h : exec i s = .next t) :
    ∃ k, (k = 1 ∨ ∃ n, i = .run n ∧ k = n.toNat + 1) ∧
      t.outLen = s.outLen + k * (pixelBytes s.channels s.prev).length := by
  rcases exec_opcode_shape i s t hi h with ⟨p, rfl⟩ | ⟨n, hn, rfl⟩
  · exact ⟨1, .inl rfl, by simp [pixelBytes_length]⟩
  · exact ⟨n.toNat + 1, .inr ⟨n, hn, rfl⟩, by simp [List.length_flatten, runLength]⟩

/-- What is owed of whole pixels is at least one (46_output_controller.md R173). -/
theorem pixel_le_owed (s : State) (h : HeaderRead s) (ho : s.outLen < s.target) :
    s.outLen + s.channels.toNat ≤ s.target := by
  obtain ⟨-, -, htarget, hmod, -⟩ := h
  have hdvd : s.channels.toNat ∣ s.target - s.outLen :=
    Nat.dvd_sub (htarget ▸ Nat.dvd_mul_left _ _) (Nat.dvd_of_mod_eq_zero hmod)
  have howed : s.channels.toNat ≤ s.target - s.outLen := Nat.le_of_dvd (by omega) hdvd
  omega

/-- Settles O37: one pixel is owed at least, and a run is not longer than what is owed. -/
theorem onlyLongRunPassesTarget : Obligations.OnlyLongRunPassesTarget := by
  intro i s t hi hread ho hshort h
  obtain ⟨k, hk, hlen⟩ := exec_opcode_outLen i s t hi h
  rw [pixelBytes_length_legal s.channels s.prev hread.1] at hlen
  rw [hlen, (exec_opcode_stage_target i s t hi h).2]
  rcases hk with rfl | ⟨n, hn, rfl⟩
  · simpa using pixel_le_owed s hread ho
  · exact hshort n hn

/-! ### The whole output -/

/-- A block whose every byte is there is read whole. -/
theorem Memory.readBytes_of_isSome (m : Memory) (a n : Nat) (h : ∀ x, a ≤ x → x < a + n → (m.read x).isSome) :
    ∃ bs, m.readBytes a n = some bs := by
  induction n generalizing a with
  | zero => exact ⟨[], rfl⟩
  | succ n ih =>
    obtain ⟨b, hb⟩ := Option.isSome_iff_exists.1 (h a (by omega) (by omega))
    obtain ⟨bs, hbs⟩ := ih (a + 1) fun x h1 h2 => h x (by omega) (by omega)
    exact ⟨b :: bs, by simp only [Memory.readBytes, hb, hbs]⟩

/-- Settles O36: the output lists every offset below `OUT_LEN`, and the header bounds `OUT_LEN` from both sides. -/
theorem resultLength : Obligations.ResultLength := by
  intro s h hs
  obtain ⟨-, hdense, -, -, hstage, -, -⟩ := h
  simp only [StageCoherent, hs] at hstage
  obtain ⟨⟨-, -, htarget, -, hmax⟩, hmin⟩ := hstage
  obtain ⟨bs, hbs⟩ := Memory.readBytes_of_isSome s.out 0 s.outLen fun x _ hx => (hdense x).2 (by omega)
  have hlen : bs.length = s.outLen := Memory.readBytes_length _ _ _ _ hbs
  refine ⟨bs, by simp [State.result, hs, State.outBytes, hbs], hlen, ?_, ?_⟩
  · rwa [hlen, ← htarget]
  · rwa [hlen, ← htarget]

end Sys2Proof.Machine
end

section
/-! PROOF. Every decode ends (46_output_controller.md R174): a step fails, goes to a later stage, or consumes a byte. -/

namespace Sys2Proof.Machine

open Sys2Proof.Safety

/-! ### Progress of one step -/

/-- Every instruction takes a byte at least (30_encoding.md R71). -/
theorem length_pos (i : Instr) : 1 ≤ i.length := by
  cases i <;> exact Nat.succ_pos _

/-- An opcode appends three bytes at least: one pixel of the smaller size. -/
theorem exec_opcode_outLen_ge (i : Instr) (s t : State) (hi : i.stage = .opcode) (h : exec i s = .next t) :
    s.outLen + 3 ≤ t.outLen := by
  obtain ⟨k, hk, hlen⟩ := exec_opcode_outLen i s t hi h
  have hk1 : 1 ≤ k := by rcases hk with rfl | ⟨n, -, rfl⟩ <;> omega
  have hpixel : 3 ≤ (pixelBytes s.channels s.prev).length := by rw [pixelBytes_length]; split_ifs <;> omega
  have := Nat.mul_le_mul hk1 hpixel
  omega

/-- A step that stays in `S_OPCODE` ran an opcode. -/
theorem exec_of_step_in_loop (s t : State) (hs : s.stage = .opcode) (ht : t.stage = .opcode) (hstep : step s = .next t) :
    ∃ i : Instr, i.stage = .opcode ∧ exec i s.dropStart = .next t := by
  rcases step_cases s t hstep with ⟨_, _, rfl⟩ | ⟨_, _, rfl⟩ | ⟨_, _, rfl⟩ | ⟨i, hi, _, _, _, _, hx⟩
  · cases ht
  · cases ht
  · cases ht
  · exact ⟨i, hi.trans hs, hx⟩

/-- The first half of R174: the successors of a stage are a failure, itself in the loop, and the next one. -/
theorem step_progress (s t : State) (hrun : Running s) (hstep : step s = .next t) :
    t.stage = .failed ∨ stageCode s.stage < stageCode t.stage ∨
      (s.stage = .opcode ∧ t.stage = .opcode ∧ s.cur + 1 ≤ t.cur ∧ s.outLen + 3 ≤ t.outLen) := by
  rcases stageSuccessors s t hstep with ⟨hq, _⟩ | ⟨_, hfail | ⟨hs, ht⟩ | hnext⟩
  · exact absurd hrun (not_running_of_quiescent s hq)
  · exact .inl hfail
  · obtain ⟨i, hi, hx⟩ := exec_of_step_in_loop s t hs ht hstep
    have hcur : t.cur = s.cur + i.length :=
      execEffect_cur i s.dropStart t (by rw [ht]; nofun) (exec_effect i _ t hx)
    have := length_pos i
    exact .inr (.inr ⟨hs, ht, by omega, exec_opcode_outLen_ge i s.dropStart t hi hx⟩)
  · exact .inr (.inl (by omega))

/-! ### The bound -/

/-- How many steps a running decode can still make: one for each byte left, one for each stage left. -/
def stepsLeft (s : State) : Nat := (s.inLen - s.cur) + (8 - stageCode s.stage)

/-- A stage other than `S_IDLE` runs or has ended (10_state.md R27). -/
theorem ended_or_running (s : State) (h : 1 ≤ stageCode s.stage) : Ended s ∨ Running s := by
  unfold Ended Running State.busy
  cases hs : s.stage <;> simp [hs, stageCode] at h ⊢

/-- A step that does not fail leaves fewer: the stage moves on with the cursor not behind, or the cursor moves on within the
stream. -/
theorem stepsLeft_lt_of_step (s t : State) (hrun : Running s) (hstep : step s = .next t) (ht : t.stage ≠ .failed) :
    stepsLeft t < stepsLeft s := by
  have hcode : 1 ≤ stageCode s.stage ∧ stageCode s.stage ≤ 7 := of_decide_eq_true hrun
  obtain ⟨-, hinLen⟩ := inputNeverWritten s t hstep
  unfold stepsLeft
  rw [hinLen]
  rcases cursorOnlyMovesForward s t hrun hstep ht with ⟨hcur, hs, hend⟩ | ⟨i, -, -, hcur, hle, -⟩
  · simp only [hcur, hs, hend, stageCode]
    omega
  · rcases step_progress s t hrun hstep with hfail | hlater | ⟨hs, hloop, hmoved, -⟩
    · exact absurd hfail ht
    · omega
    · rw [hs, hloop]
      omega

/-- A step of a running stage ends the decode or leaves fewer steps. -/
theorem ended_or_stepsLeft_lt (s t : State) (hrun : Running s) (hstep : step s = .next t) :
    Ended t ∨ (Running t ∧ stepsLeft t < stepsLeft s) := by
  by_cases ht : t.stage = .failed
  · exact .inl (.inr ht)
  · have hcode : 1 ≤ stageCode t.stage := by
      rcases step_progress s t hrun hstep with hfail | hlater | ⟨-, hloop, -⟩
      · exact absurd hfail ht
      · omega
      · simp [hloop, stageCode]
    exact (ended_or_running t hcode).imp_right fun hrun' => ⟨hrun', stepsLeft_lt_of_step s t hrun hstep ht⟩

/-- A running decode ends within the steps it has left. -/
theorem leadsTo_ended (k : Nat) (s : State) (hrun : Running s) (hk : stepsLeft s ≤ k) : LeadsTo k s Ended := by
  induction k generalizing s with
  | zero =>
    have hcode : 1 ≤ stageCode s.stage ∧ stageCode s.stage ≤ 7 := of_decide_eq_true hrun
    unfold stepsLeft at hk
    omega
  | succ k ih =>
    obtain ⟨t, hstep⟩ := step_next_of_running s hrun
    apply leadsTo_of_step k s t Ended hstep
    rcases ended_or_stepsLeft_lt s t hrun hstep with hend | ⟨hrun', hlt⟩
    · exact ⟨0, t, Nat.zero_le k, rfl, hend⟩
    · exact ih t hrun' (by omega)

/-- Settles O47: each step makes progress, and a decode begins with `IN_LEN` bytes and seven stages left at most. -/
theorem everyDecodeEnds : Obligations.EveryDecodeEnds := by
  refine ⟨step_progress, fun s hrun => leadsTo_ended _ s hrun ?_⟩
  unfold stepsLeft
  omega

end Sys2Proof.Machine
end
section
/-! PROOF. Two inputs that agree on the bytes a step consumes (46_output_controller.md R176): the encoding at the cursor decides
the step, and no meaning looks at the input. -/

namespace Sys2Proof.Machine

open Sys2Proof.Safety

/-- The same machine with another input stream. -/
def State.withInput (s : State) (input : Memory) (inLen : Nat) : State := { s with input := input, inLen := inLen }

/-- Whatever the input, the operation goes to the same state but for the input. -/
def IgnoresInput (op : State → Host.Outcome State Fault Refusal) : Prop :=
  ∀ (s t : State) (input : Memory) (inLen : Nat),
    op s = .next t → op (s.withInput input inLen) = .next (t.withInput input inLen)

/-- The meaning of a field that is checked, then taken: neither a failure nor the taking looks at the input. -/
theorem ignoresInput_checked (ok : Prop) [Decidable ok] (f : Failure) (take : State → State)
    (h : ∀ s input inLen, take (s.withInput input inLen) = (take s).withInput input inLen) :
    IgnoresInput fun s => if ok then .next (take s) else .next (raise f s) := by
  intro s t input inLen hop
  by_cases hok : ok
  · simp only [if_pos hok, Host.Outcome.next.injEq] at hop ⊢
    exact hop ▸ h s input inLen
  · simp only [if_neg hok, Host.Outcome.next.injEq] at hop ⊢
    exact hop ▸ rfl

theorem emitN_withInput (p : Pixel) (k : Nat) (s : State) (input : Memory) (inLen : Nat) :
    emitN p k (s.withInput input inLen) = (emitN p k s).withInput input inLen := by
  simp only [emitN_eq_append]
  rfl

/-- No instruction's meaning looks at the input: its bytes have been fetched. -/
theorem exec_ignoresInput (i : Instr) : IgnoresInput (exec i) := by
  cases i with
  | magic m => exact ignoresInput_checked _ _ _ fun _ _ _ => rfl
  | channels c => exact ignoresInput_checked _ _ _ fun _ _ _ => rfl
  | colorspace v => exact ignoresInput_checked _ _ _ fun _ _ _ => rfl
  | endMark e => exact ignoresInput_checked _ _ _ fun _ _ _ => rfl
  | run n =>
    rintro s _ input inLen ⟨⟩
    exact congrArg _ (emitN_withInput s.prev (runLength n) (s.advance 1) input inLen)
  | width | height | rgb | rgba | index | diff | luma => rintro s _ input inLen ⟨⟩; rfl

/-- Bytes that lie in one input lie in every other that agrees on them and is long enough. -/
theorem inputHas_withInput (s : State) (input : Memory) (inLen a : Nat) (bs : List Byte) (h : InputHas s a bs)
    (hlen : a + bs.length ≤ inLen) (hagree : ∀ x, x < a + bs.length → input.inByte x = s.inByte x) :
    InputHas (s.withInput input inLen) a bs :=
  ⟨hlen, (Memory.inBytes_congr input s.input a bs.length fun x _ hx => hagree x hx).trans h.2⟩

/-- In a running stage, with pixels owed in `S_OPCODE`, the encoding of an instruction of the stage at the cursor runs it. -/
theorem step_of_encode (s : State) (i : Instr) (hi : i.stage = s.stage) (hw : i.wellFormed = true)
    (ho : s.stage = .opcode → s.outLen < s.target) (hin : InputHas s s.cur (encode i)) : step s = exec i s.dropStart := by
  have hd : decode i.stage (encode i) = .ok (i, []) := by
    simpa [decode, encode] using decodeOfEncode diffLayout i [] hw
  exact stepRunsDecodedInstruction s _ i (busy_of_instr_stage s i hi) ho hin (hi ▸ hd)

/-- Settles O38: the loop ends without a fetch, and an instruction that does not fail leaves the cursor right behind its
encoding, which the other input holds too. -/
theorem laterBytesDoNotMatter : Obligations.LaterBytesDoNotMatter := by
  intro s t input inLen hrun hstep ht hlen hagree
  rcases step_cases s t hstep with ⟨hq, _⟩ | ⟨hs, hge, rfl⟩ | ⟨_, _, rfl⟩ | ⟨i, hi, hw, _, hf, ho, hx⟩
  · exact absurd hrun (not_running_of_quiescent s hq)
  · exact step_of_target_reached (s.withInput input inLen) hs hge
  · exact absurd rfl ht
  · have hcur : t.cur = s.cur + (encode i).length := by
      rw [(fetchLength i hw).1]
      exact execEffect_cur i s.dropStart t ht (exec_effect i _ t hx)
    rw [hcur] at hlen hagree
    have hin := inputHas_withInput s input inLen s.cur _ (inputHas_of_fetchInstr_run s i hf) hlen hagree
    exact (step_of_encode (s.withInput input inLen) i hi hw ho hin).trans (exec_ignoresInput i _ _ input inLen hx)

end Sys2Proof.Machine
end

section
/-! PROOF. `START` and the room for the image (46_output_controller.md R181, 70_reset_and_hazards.md R234): what the host's write
of `CTRL` does, by what the header in the input space asks for. -/

namespace Sys2Proof.Machine

open Sys2Proof.Safety

theorem busy_of_quiescent (s : State) (h : Quiescent s) : s.busy = false :=
  Bool.eq_false_iff.2 (not_running_of_quiescent s h)

/-- A stream that asks for no image fits every capacity. -/
theorem fits_of_no_target (p : Config.Params) (stream : List Byte) (h : headerTarget stream = none) : fits p stream = true := by
  rw [fits, h]
  cases p.outCap <;> rfl

/-- A `START` on a stream that asks for an image is taken exactly where the image fits. -/
theorem writeCtrl_start_of_target (curBits cap target channels : Nat) (s : State) (hb : s.busy = false)
    (h : headerTarget s.placedHeader = some (target, channels)) :
    writeCtrl ⟨curBits, some cap⟩ 1 s =
      if target + 61 * channels ≤ cap then .next { s with ctrlStart := true } else .refused .launchDoesNotFit := by
  simp [writeCtrl, hb, fits, h]

/-- Where the stream is long enough, its first fourteen bytes are the placed header. -/
theorem placedHeader_of_le (s : State) (h : 14 ≤ s.inLen) : s.placedHeader = s.inBytes 0 14 := by
  rw [State.placedHeader, Nat.min_eq_left h]

/-- Four bytes make the same number as a list and as a word. -/
theorem beNat_eq_toNat_be32 (b0 b1 b2 b3 : Byte) : beNat [b0, b1, b2, b3] = (be32 b0 b1 b2 b3).toNat := by
  have hlt : beNat [b0, b1, b2, b3] < 256 ^ 4 := beNat_lt [b0, b1, b2, b3]
  rw [be32, BitVec.toNat_ofNat, Nat.mod_eq_of_lt (by omega)]

/-- The image a header asks for that the decoder accepts. -/
theorem headerTarget_of_legal (w0 w1 w2 w3 h0 h1 h2 h3 c v : Byte) (hc : c = 3 ∨ c = 4) (hv : v = 0 ∨ v = 1) :
    headerTarget [0x71, 0x6F, 0x69, 0x66, w0, w1, w2, w3, h0, h1, h2, h3, c, v] =
      some ((be32 w0 w1 w2 w3).toNat * (be32 h0 h1 h2 h3).toNat * c.toNat, c.toNat) := by
  have hchannels : beNat [c] = c.toNat := by simp [beNat]
  rw [← beNat_eq_toNat_be32, ← beNat_eq_toNat_be32, ← hchannels]
  exact if_pos ⟨rfl, hc.imp (congrArg some) (congrArg some), hv.imp (congrArg some) (congrArg some)⟩

/-- A placed header that asks for an image is whole and passes every check of R106 (log 13). -/
theorem legal_of_headerTarget_placedHeader (s : State) (x : Nat × Nat) (h : headerTarget s.placedHeader = some x) :
    14 ≤ s.inLen ∧ s.inBytes 0 4 = [0x71, 0x6F, 0x69, 0x66] ∧ (s.inByte 12 = 3 ∨ s.inByte 12 = 4) ∧
      (s.inByte 13 = 0 ∨ s.inByte 13 = 1) := by
  unfold headerTarget at h
  split_ifs at h with hlegal
  obtain ⟨hmagic, hchannels, hcolorspace⟩ := hlegal
  have hlong : 14 ≤ s.inLen := by
    have hlt : 13 < s.placedHeader.length := by
      rcases hcolorspace with hv | hv <;> exact (List.getElem?_eq_some_iff.1 hv).1
    rw [State.placedHeader, State.inBytes_length] at hlt
    omega
  have hbyte : ∀ k, k < 14 → s.placedHeader[k]? = some (s.inByte k) := fun k hk => by
    rw [placedHeader_of_le s hlong]
    exact (Memory.inBytes_getElem? s.input 0 14 k hk).trans (by rw [Nat.zero_add]; rfl)
  have htake : s.placedHeader.take 4 = s.inBytes 0 4 := by
    rw [placedHeader_of_le s hlong, s.inBytes_append 0 4 10, List.take_left' (s.inBytes_length 0 4)]
  rw [hbyte 12 (by decide), Option.some.injEq, Option.some.injEq] at hchannels
  rw [hbyte 13 (by decide), Option.some.injEq, Option.some.injEq] at hcolorspace
  exact ⟨hlong, htake.symm.trans hmagic, hchannels, hcolorspace⟩

/-- A stream whose placed header is cut short or fails a check asks for no image (log 13). -/
theorem headerTarget_placedHeader_of_failing (s : State)
    (h : s.inLen < 14 ∨ s.inBytes 0 4 ≠ [0x71, 0x6F, 0x69, 0x66] ∨ ¬(s.inByte 12 = 3 ∨ s.inByte 12 = 4) ∨
      ¬(s.inByte 13 = 0 ∨ s.inByte 13 = 1)) : headerTarget s.placedHeader = none := by
  refine Option.eq_none_iff_forall_ne_some.2 fun x hx => ?_
  obtain ⟨hlong, hmagic, hchannels, hcolorspace⟩ := legal_of_headerTarget_placedHeader s x hx
  rcases h with h | h | h | h
  · omega
  · exact h hmagic
  · exact h hchannels
  · exact h hcolorspace

/-- Settles O54: a write without bit 0 is no `START`; a `START` is refused only where the header asks for more than the
capacity. -/
theorem startNeedsRoomForTheImage : Obligations.StartNeedsRoomForTheImage := by
  intro curBits s hq
  have hb : s.busy = false := busy_of_quiescent s hq
  refine ⟨fun cap v hv => ?even, writeCtrl_start _ s hb rfl, fun cap hfail => ?noTarget,
    fun cap w0 w1 w2 w3 h0 h1 h2 h3 c v hin hc hv => ?target⟩
  case even => exact if_neg fun hstart => by omega
  case noTarget =>
    exact writeCtrl_start _ s hb (fits_of_no_target _ _ (headerTarget_placedHeader_of_failing s hfail))
  case target =>
    have hplaced := (placedHeader_of_le s hin.1).trans hin.2
    exact writeCtrl_start_of_target curBits cap _ _ s hb
      (hplaced ▸ headerTarget_of_legal w0 w1 w2 w3 h0 h1 h2 h3 c v hc hv)

end Sys2Proof.Machine
end

section
/-! PROOF. Failures (60_exceptions.md R207, R211 to R213): a running stage raises a short read or the failure of its own check,
and nothing else leads it to `S_FAILED`. -/

namespace Sys2Proof.Machine

open Sys2Proof.Safety

/-- An instruction of the stage that ends in `S_FAILED` failed the check of its field. -/
theorem execEffect_failed (i : Instr) (s t : State) (hi : i.stage = s.stage) (ht : t.stage = .failed)
    (he : ExecEffect s i t) : ∃ f, checkFailure s.stage = some f ∧ t = raise f s := by
  cases he with
  | failed _ f hf => exact ⟨f, hi ▸ hf, rfl⟩
  | committed _ p hop => cases hop.symm.trans (hi.trans ht)
  | run n => cases hi.trans ht
  | magic | width | height | channels | colorspace | endMark => cases ht

/-- All that a step of a running stage into `S_FAILED` can be: the taking of a short read or of a failed check. -/
theorem step_failed (s t : State) (hrun : Running s) (hstep : step s = .next t) (ht : t.stage = .failed) :
    ∃ f, (f = .unexpectedEof ∨ checkFailure s.stage = some f) ∧ t = raise f s.dropStart := by
  rcases step_cases s t hstep with ⟨hq, _⟩ | ⟨_, _, rfl⟩ | ⟨_, _, rfl⟩ | ⟨i, hi, _, _, _, _, hx⟩
  · exact absurd hrun (not_running_of_quiescent s hq)
  · cases ht
  · exact ⟨_, .inl rfl, rfl⟩
  · obtain ⟨f, hf, rfl⟩ := execEffect_failed i s.dropStart t hi ht (exec_effect i _ t hx)
    exact ⟨f, .inr hf, rfl⟩

/-- A failure taken drops the output (log 5) and leaves the cursor, `PREV`, the history (log 6) and the input. -/
theorem raisedFrom_raise_dropStart (f : Failure) (s : State) : RaisedFrom s (raise f s.dropStart) f :=
  ⟨rfl, rfl, rfl, rfl, rfl, rfl, rfl, rfl, rfl, rfl, rfl⟩

/-- Settles O10: the step took a failure. -/
theorem failureEntry : Obligations.FailureEntry := by
  intro s t hrun hstep ht
  obtain ⟨f, -, rfl⟩ := step_failed s t hrun hstep ht
  exact ⟨f, raisedFrom_raise_dropStart f s⟩

/-- What the host reads from register 2 after a failure: its code and its stage (R31, R207). -/
theorem hostRead_err_raise (f : Failure) (s : State) :
    hostRead .err (raise f s) = .ok (failureCode f + 16 * stageCode s.stage) := rfl

/-- The stages whose field has a check, each with its failure (R207). -/
theorem checkFailure_eq_some (st : Stage) (f : Failure) (h : checkFailure st = some f) :
    (st = .magic ∧ f = .invalidMagic) ∨ (st = .channels ∧ f = .invalidChannelCount) ∨
    (st = .colorspace ∧ f = .invalidColorspace) ∨ (st = .endMark ∧ f = .invalidEndMarker) := by
  cases st <;> cases h <;> decide

/-- Settles O11: a short read in any running stage, or the failure of the stage's own check; the word follows. -/
theorem failureTable : Obligations.FailureTable := by
  intro s t hrun hstep ht
  obtain ⟨f, hf, rfl⟩ := step_failed s t hrun hstep ht
  rw [hostRead_err_raise, raise_err, State.dropStart_stage]
  rcases hf with rfl | hf
  · exact .inr (.inl ⟨rfl, rfl⟩)
  · rcases checkFailure_eq_some _ _ hf with ⟨hs, rfl⟩ | ⟨hs, rfl⟩ | ⟨hs, rfl⟩ | ⟨hs, rfl⟩ <;> rw [hs]
    · exact .inl ⟨rfl, rfl, rfl⟩
    · exact .inr (.inr (.inl ⟨rfl, rfl, rfl⟩))
    · exact .inr (.inr (.inr (.inl ⟨rfl, rfl, rfl⟩)))
    · exact .inr (.inr (.inr (.inr ⟨rfl, rfl, rfl⟩)))

end Sys2Proof.Machine
end

section
/-! PROOF. Power-on, `START`, a launch and the two buffers (70_reset_and_hazards.md R230 to R239). -/

namespace Sys2Proof.Machine

open Sys2Proof.Safety

/-! ### START -/

/-- A stage that does not run waits for a `START` (10_state.md R27). -/
theorem quiescent_of_not_busy (s : State) (h : s.busy = false) : Quiescent s := by
  unfold Quiescent
  cases hs : s.stage <;> simp [State.busy, hs, stageCode] at h ⊢

/-- In a quiescent stage the step after a `START` is the decode reset (R231). -/
theorem step_of_start (s : State) (hq : Quiescent s) : step { s with ctrlStart := true } = .next (decodeReset s) := by
  have ha : nextAction { s with ctrlStart := true } = .reset := by
    rcases hq with hs | hs | hs <;> simp only [nextAction, hs] <;> rfl
  rw [step, ha]
  rfl

/-- Settles O40: the write is taken, and the step is the decode reset; the hash of opaque black is 53. -/
theorem startPerformsDecodeReset : Obligations.StartPerformsDecodeReset := by
  intro p s hq hfits
  have hslots : ∀ i : Fin 64, (decodeReset s).hist.get i = if i.val = 53 then Pixel.initial else Pixel.zero := by
    intro i
    rw [decodeReset_slot, show pixelHash Pixel.initial = 53 from rfl]
    simp only [Fin.ext_iff]
    rfl
  exact ⟨_, decodeReset s, writeCtrl_start p s (busy_of_quiescent s hq) hfits, step_of_start s hq,
    rfl, hslots, rfl, rfl, rfl, rfl, rfl, rfl, rfl, rfl⟩

/-- While `BUSY` a write of `CTRL` does nothing (R239, D10). -/
theorem writeCtrl_of_running (p : Config.Params) (v : Nat) (s : State) (hrun : Running s) : writeCtrl p v s = .next s :=
  if_neg fun hstart => Bool.false_ne_true (hstart.2.symm.trans hrun)

/-- The step of a running stage is not decided by a `START` that waits, and forgets it. -/
theorem step_of_running_start (s : State) (b : Bool) (hrun : Running s) : step { s with ctrlStart := b } = step s := by
  rcases nextAction_cases s with ⟨hq, _⟩ | ⟨hs, hge, _⟩ | ⟨_, ho, ha⟩
  · exact absurd hrun (not_running_of_quiescent s hq)
  · exact (step_of_target_reached { s with ctrlStart := b } hs hge).trans (step_of_target_reached s hs hge).symm
  · rw [step, nextAction_of_running { s with ctrlStart := b } hrun ho, step, ha]
    rfl

/-- Settles O49: neither the write nor the step of a running stage minds the `START`. -/
theorem startWhileBusyIgnored : Obligations.StartWhileBusyIgnored :=
  ⟨fun p s v hrun => writeCtrl_of_running p v s hrun,
    fun s hrun => (step_of_running_start s true hrun).trans (step_of_running_start s false hrun).symm⟩

/-- Settles O50: power-on leads to `S_IDLE` with no `START` waiting, which is quiescent. -/
theorem powerOnWaitsForStart : Obligations.PowerOnWaitsForStart := fun junk =>
  ⟨rfl, rfl, rfl, step_fault_of_quiescent (powerOn junk) (.inl rfl) rfl, rfl⟩

/-! ### A launch -/

/-- The same machine with a stream placed from offset 0 on, and its length written (R234 (1), (2)). -/
def State.withStream (s : State) (stream : List Byte) : State :=
  s.withInput (s.input.writeBytes 0 stream) stream.length

/-- The test of a `START` looks at the header of the stream just placed. -/
theorem placedHeader_withStream (s : State) (stream : List Byte) : (s.withStream stream).placedHeader = stream.take 14 :=
  placedHeader_placed s stream

/-- The stream placed lies at offset 0, whole. -/
theorem inputHas_withStream (s : State) (stream : List Byte) : InputHas (s.withStream stream) 0 stream :=
  ⟨(Nat.zero_add _).le, Memory.inBytes_writeBytes s.input 0 stream⟩

/-- Every byte of the stream placed is there. -/
theorem inputPlaced_withStream (s : State) (stream : List Byte) : InputPlaced (s.withStream stream) := by
  intro a ha
  have hlt : a < stream.length := ha
  have hread := Memory.read_writeBytes s.input 0 stream a
  rw [if_pos (by omega), Nat.sub_zero, List.getElem?_eq_getElem hlt] at hread
  exact Option.isSome_of_eq_some hread

/-- With no decode in flight a launch is a `START` on the machine with the stream placed (R234). -/
theorem launch_of_not_inUse (p : Config.Params) (stream : List Byte) (s : State) (h : s.inUse = false) :
    launch p stream s = writeCtrl p 1 (s.withStream stream) := if_neg (Bool.eq_false_iff.1 h)

theorem not_busy_of_not_inUse (s : State) (h : s.inUse = false) : s.busy = false := (Bool.or_eq_false_iff.1 h).1

/-- A launch of a stream whose image fits is taken. -/
theorem launch_of_fits (p : Config.Params) (stream : List Byte) (s : State) (h : s.inUse = false)
    (hfits : fits p stream = true) : launch p stream s = .next { s.withStream stream with ctrlStart := true } := by
  have hplaced : fits p (s.withStream stream).placedHeader = true := by
    rwa [placedHeader_withStream, fits_take]
  rw [launch_of_not_inUse p stream s h, writeCtrl_start p (s.withStream stream) (not_busy_of_not_inUse s h) hplaced]

/-- A launch of a stream whose header asks for more than the capacity is refused (R181, U3). -/
theorem launch_of_no_room (curBits cap target channels : Nat) (stream : List Byte) (s : State) (h : s.inUse = false)
    (htarget : headerTarget (stream.take 14) = some (target, channels)) (hcap : cap < target + 61 * channels) :
    launch ⟨curBits, some cap⟩ stream s = .refused .launchDoesNotFit := by
  rw [← placedHeader_withStream s] at htarget
  have hstart := writeCtrl_start_of_target curBits cap target channels (s.withStream stream) (not_busy_of_not_inUse s h) htarget
  rw [launch_of_not_inUse _ stream s h, hstart, if_neg (by omega)]

/-- Settles O53: a launch places the stream and writes `START`, on which the next step is the decode reset; the header of the
stream decides whether it is refused. -/
theorem launchPlacesStream : Obligations.LaunchPlacesStream := by
  refine ⟨fun p stream s huse hfits => ?taken,
    fun cap curBits rest s w0 w1 w2 w3 h0 h1 h2 h3 c v huse hc hv hcap => ?refused⟩
  case taken =>
    have hq : Quiescent (s.withStream stream) := quiescent_of_not_busy _ (not_busy_of_not_inUse s huse)
    exact ⟨_, _, launch_of_fits p stream s huse hfits, step_of_start _ hq, rfl, rfl, rfl, inputHas_withStream s stream,
      inputPlaced_withStream s stream, Memory.writeBytes_wf s.input 0 stream⟩
  case refused =>
    exact launch_of_no_room curBits cap _ _ _ s huse (headerTarget_of_legal w0 w1 w2 w3 h0 h1 h2 h3 c v hc hv) hcap

/-! ### The two buffers -/

/-- A byte of `OUT` that is there, read at `S_DONE` with no `START` waiting, below `OUT_LEN` (R237). -/
theorem hostReadOut_of_ready (s : State) (a : Nat) (b : Byte) (hs : s.stage = .done) (hc : s.ctrlStart = false)
    (ha : a < s.outLen) (hb : s.out.read a = some b) : hostReadOut a s = .ok b := by
  simp [hostReadOut, State.resultReady, (isDone_iff s).2 hs, hc, ha, hb]

/-- Elsewhere the read of `OUT` is refused (R237, U4). -/
theorem hostReadOut_of_not_ready (s : State) (a : Nat) (h : s.stage ≠ .done ∨ s.outLen ≤ a) :
    hostReadOut a s = .error .outputNotReady := by
  refine if_neg fun ⟨hready, ha⟩ => ?_
  have hs : s.stage = .done := (isDone_iff s).1 (Bool.and_eq_true_iff.1 hready).1
  rcases h with h | h
  · exact h hs
  · omega

theorem inUse_of_running (s : State) (hrun : Running s) : s.inUse = true := Bool.or_eq_true_iff.2 (.inl hrun)

/-- Settles O52: a coherent machine's output lists every offset below `OUT_LEN`, and in a running stage the input is in use. -/
theorem hostBuffersGuarded : Obligations.HostBuffersGuarded := by
  refine ⟨fun s a h hs hc ha => ?inside, hostReadOut_of_not_ready, fun s a b hrun => if_pos (inUse_of_running s hrun),
    fun p s v hrun => if_pos (inUse_of_running s hrun)⟩
  case inside =>
    obtain ⟨-, hdense, -⟩ := h
    obtain ⟨b, hb⟩ := Option.isSome_iff_exists.1 ((hdense a).2 ha)
    exact ⟨b, hostReadOut_of_ready s a b hs hc ha hb, hb⟩

end Sys2Proof.Machine
end
